-- ==== Sys2Proof/Word.lean ====
section
/-! DEFINITION. The word types and the plainest byte strings of the notation (00_scope.md R9). -/

namespace Sys2Proof

/-- A byte: 8 bits (R9). -/
abbrev Byte := BitVec 8

/-- A command word: 32 bits, bit 31 most significant (30_encoding.md R62). -/
abbrev Word := BitVec 32

/-- `zeros(n)`: `n` bytes of 0x00 (R9). -/
def zeros (n : Nat) : List Byte := List.replicate n 0

/-- `rep(v, n)`: `n` bytes of value `v` (R9). -/
def rep (v : Byte) (n : Nat) : List Byte := List.replicate n v

end Sys2Proof
end

