-- ==== Sys2Proof/Config.lean ====
section
/-! DEFINITION. What is fixed when the hardware is built (00_scope.md R8, 10_state.md R25) as plain
data, and the free values: functions and values the spec leaves open, as constants without a body.
The table look-ups and the default table stand in Machine/Table.lean. -/

namespace Sys2Proof

/-- A byte order: of the padding length field (41_digest_padding.md R99, `lenEndian`), and of the
serialised command word (20_memory.md R44: the platform's choice). -/
inductive Endian where
  | le
  | be
deriving DecidableEq, Repr

/-- The padding path family of a policy (R99, `kind`). -/
inductive PolicyKind where
  | mdl
  | md2
  | sponge
deriving DecidableEq, Repr

/-- A padding policy, the record `pol` of R99. -/
structure Policy where
  /-- `kind`: which padding path family. -/
  kind : PolicyKind
  /-- `LFW`: the length field's width in bytes; unused unless `mdl`. -/
  lfw : Nat
  /-- `lenEndian`: byte order of the length field; unused unless `mdl`. -/
  lenEndian : Endian
  /-- `maxBits`: the declared maximum input length in bits, or none. -/
  maxBits : Option Nat
  /-- `dom`: the domain byte; `sponge` only. -/
  dom : Byte
deriving DecidableEq, Repr

/-- Which compression core answers for a table row: the TOY fixture, defined by 42_core_interface.md
R132, or a core whose functions the spec leaves uninterpreted (R122), told apart by a number. -/
inductive Core where
  | toy
  | published (id : Nat)
deriving DecidableEq, Repr

/-- One record of the algorithm table ATAB (00_scope.md R8). -/
structure AlgRecord where
  /-- The 8-bit tag `a`, 1 to 255. -/
  tag : BitVec 8
  /-- `ATAB[a].name`. -/
  name : String
  /-- `ATAB[a].B`: block length in bytes. -/
  b : Nat
  /-- `ATAB[a].DL`: digest length in bytes. -/
  dl : Nat
  /-- `ATAB[a].CSW`: width of the core state in bits. -/
  csw : Nat
  /-- The core that supplies `IV`, `F`, `OUT` and `CK`. -/
  core : Core
  /-- `ATAB[a].pol`. -/
  pol : Policy
deriving DecidableEq, Repr

/-- The parameters of the hardware (R8). Plain data: a machine of any parameters is a state that
carries them, and every statement over all states is over all of them (log entry 1). -/
structure Config where
  /-- `NCTX`: the number of context slots, 1 to 16. -/
  nctx : Nat
  /-- `ATAB`: the algorithm table. -/
  atab : List AlgRecord
  /-- The order in which the platform serialises the four bytes of a command word (20_memory.md R44,
  92_eei_decisions.md D22; log entry 4). -/
  wordOrder : Endian
deriving DecidableEq, Repr

/-! ### Free values -/

/-- `ATAB[a].IV` of a core the spec leaves uninterpreted (R8, R126; log entry 2). -/
opaque Config.coreIV : (id : Nat) → Nat

/-- `ATAB[a].F` of a core the spec leaves uninterpreted: a total function of the core state and one
block, and of nothing else (R122; log entry 2). -/
opaque Config.coreF : (id cs : Nat) → (block : List Byte) → Nat

/-- Byte number `i` of `ATAB[a].OUT(cs)` of an uninterpreted core (R112; log entry 2). -/
opaque Config.coreOut : (id cs i : Nat) → Byte

/-- Byte number `i` of `ATAB[a].CK(cs)`, the checksum block (R110; log entry 2). -/
opaque Config.coreCK : (id cs i : Nat) → Byte

/-- The domain byte of the default Keccak row, which the spec leaves open (R131, 93_implementation_defined.md
U3; log entry 3). -/
opaque Config.keccakDom : Byte

/-- Byte number `i` of a partial-block buffer that an invariant violation left partly written, the
`k`-th such event (93_implementation_defined.md U7; log entry 8). -/
opaque Config.abortedByte : (k i : Nat) → Byte

/-- A fill count that an invariant violation left partly written (U7; log entry 8). -/
opaque Config.abortedFill : (k : Nat) → Nat

/-- A core state that an invariant violation left partly written (U7; log entry 8). -/
opaque Config.abortedCore : (k : Nat) → Nat

end Sys2Proof
end

