-- ==== Sys2Proof/Syntax.lean ====
section
/-! DEFINITION. The commands and core transactions: one constructor per row of
spec/opcode_table.json (30_encoding.md R61, R72), and what carries them to the engine: command
packets and core-port requests. -/

namespace Sys2Proof

/-- SHE command set 1 (00_scope.md R1): the six host commands and the two core transactions. -/
inductive Instr where
  /-- `NEW c, alg` (43_lifecycle.md R141). -/
  | new (c : BitVec 4) (alg : BitVec 8)
  /-- `UPDATE c, data` (40_update.md R81). -/
  | update (c : BitVec 4) (data : List Byte)
  /-- `UPDATE1 c, byte` (R84). -/
  | update1 (c : BitVec 4) (byte : Byte)
  /-- `DIGEST c` (41_digest_padding.md R96). -/
  | digest (c : BitVec 4)
  /-- `DUPLICATE d, s` (R144). -/
  | duplicate (d s : BitVec 4)
  /-- `ERASE c` (R148). -/
  | erase (c : BitVec 4)
  /-- `COMPRESS(a, cs, data)`, a core transaction (42_core_interface.md R121). -/
  | compress (a : BitVec 8) (cs : Nat) (data : List Byte)
  /-- `FINALIZE(a, cs, pb, fc, tl)`, a core transaction (R124). -/
  | finalize (a : BitVec 8) (cs : Nat) (pb : List Byte) (fc tl : Nat)
deriving DecidableEq, Repr

/-- What is driven on the core port (30_encoding.md R72, 92_eei_decisions.md D23): the request code,
the tag beside it, and the operands. `bytes` carries the blocks of COMPRESS or the partial block of
FINALIZE; `fc` and `tl` are FINALIZE's alone. -/
structure CoreRequest where
  creq : BitVec 2
  calg : BitVec 8
  cs : Nat
  bytes : List Byte
  fc : Nat
  tl : Nat
deriving DecidableEq, Repr

/-- How an instruction reaches the engine: as a command packet, one 32-bit word and its payload (R60),
or as a core transaction. -/
inductive Encoded where
  | packet (w : Word) (payload : List Byte)
  | transaction (r : CoreRequest)
deriving DecidableEq, Repr

end Sys2Proof
end

