-- ==== Sys2Proof/WellFormed.lean ====
section
/-! DEFINITION. Which instructions a packet or a core request can carry. -/

namespace Sys2Proof

/-- The largest payload of one UPDATE packet, `NMAX` (00_scope.md R8, 30_encoding.md R64). -/
def nmax : Nat := 65535

/-- An instruction that has an encoding within the spec's operand ranges: an UPDATE payload of at most
`NMAX` bytes (R64), a FINALIZE whose fill count is below its partial block's length (42_core_interface.md
R124: `pb : Bytes[B]`, `0 <= fc < B`). Slot numbers, tags and bytes are bounded by their types. -/
def Instr.wf : Instr → Bool
  | .new _ _ => true
  | .update _ data => data.length ≤ nmax
  | .update1 _ _ => true
  | .digest _ => true
  | .duplicate _ _ => true
  | .erase _ => true
  | .compress _ _ _ => true
  | .finalize _ _ pb fc _ => fc < pb.length

/-- A host command, as against a core transaction (30_encoding.md R61, R72). -/
def Instr.isCommand : Instr → Bool
  | .compress _ _ _ => false
  | .finalize _ _ _ _ _ => false
  | .new _ _ => true
  | .update _ _ => true
  | .update1 _ _ => true
  | .digest _ => true
  | .duplicate _ _ => true
  | .erase _ => true

end Sys2Proof
end

