-- ==== Sys2Proof/Decode.lean ====
section
/-! DEFINITION. Framing, decoding and encoding (30_encoding.md R60 to R69, R72). Decoding is total
and rejects by name. The framing of a packet is decided before its validity (R65). -/

namespace Sys2Proof

/-! ### Byte order of the serialised command word (R44: the platform's choice) -/

/-- The four bytes of a command word, the least significant first. -/
def wordBytesLE (w : Word) : List Byte :=
  [w.extractLsb' 0 8, w.extractLsb' 8 8, w.extractLsb' 16 8, w.extractLsb' 24 8]

/-- The four bytes of a command word in the platform's order. -/
def wordBytes : Endian → Word → List Byte
  | .le, w => wordBytesLE w
  | .be, w => (wordBytesLE w).reverse

/-- The command word whose serialised bytes, in stream order, are `b0 b1 b2 b3`. -/
def bytesWord : Endian → Byte → Byte → Byte → Byte → Word
  | .be, b0, b1, b2, b3 => b0 ++ b1 ++ b2 ++ b3
  | .le, b0, b1, b2, b3 => b3 ++ b2 ++ b1 ++ b0

/-! ### Fields of the command word (R62) -/

/-- `op`, bits 31:28. -/
def fieldOp (w : Word) : BitVec 4 := w.extractLsb' 28 4

/-- `ctxD`, bits 27:24. -/
def fieldCtxD (w : Word) : BitVec 4 := w.extractLsb' 24 4

/-- `ctxS`, bits 23:20. -/
def fieldCtxS (w : Word) : BitVec 4 := w.extractLsb' 20 4

/-- `rsv`, bits 19:16. -/
def fieldRsv (w : Word) : BitVec 4 := w.extractLsb' 16 4

/-- `imm`, bits 15:0. -/
def fieldImm (w : Word) : BitVec 16 := w.extractLsb' 0 16

/-- `alg` of NEW and `byte` of UPDATE1, bits 7:0 (R64). -/
def fieldLow (w : Word) : BitVec 8 := w.extractLsb' 0 8

/-! ### Framing (R65, R69) -/

/-- How many payload bytes belong to the packet of a command word: `w[15:0]` when `w[31:28] = 0x2`, and
0 otherwise, whatever the other bits hold (R65). -/
def payloadLength (w : Word) : Nat :=
  if fieldOp w = 2#4 then (fieldImm w).toNat else 0

/-- Takes exactly `n` bytes off the front of a stream, or none of it. -/
def takeExact : Nat → List Byte → Option (List Byte × List Byte)
  | 0, bs => some ([], bs)
  | _ + 1, [] => none
  | n + 1, b :: bs => (takeExact n bs).map fun p => (b :: p.1, p.2)

/-- What the front of the input stream holds. -/
inductive Framed where
  /-- fewer than the four bytes of a command word -/
  | needWord
  /-- a command word, and fewer payload bytes than it promises (70_reset_and_hazards.md R201) -/
  | needPayload (w : Word)
  /-- one whole packet, and the bytes after it -/
  | packet (w : Word) (payload rest : List Byte)
deriving DecidableEq, Repr

/-- The packet at the front of the input stream (R60, R65). -/
def framePacket (order : Endian) : List Byte → Framed
  | b0 :: b1 :: b2 :: b3 :: rest =>
    match takeExact (payloadLength (bytesWord order b0 b1 b2 b3)) rest with
    | some p => .packet (bytesWord order b0 b1 b2 b3) p.1 p.2
    | none => .needPayload (bytesWord order b0 b1 b2 b3)
  | _ => .needWord

/-! ### Decoding -/

/-- The six rows of R63, in the table's order. -/
inductive HostOp where
  | new
  | update
  | update1
  | digest
  | duplicate
  | erase
deriving DecidableEq, Repr

/-- A row of the match and mask table of R63. -/
structure OpRow where
  op : HostOp
  pattern : Word
  mask : Word
deriving DecidableEq, Repr

/-- The match and mask pairs of R63. -/
def opRows : List OpRow :=
  [⟨.new, 0x10000000, 0xF0FFFF00⟩,
   ⟨.update, 0x20000000, 0xF0FF0000⟩,
   ⟨.update1, 0x30000000, 0xF0FFFF00⟩,
   ⟨.digest, 0x40000000, 0xF0FFFFFF⟩,
   ⟨.duplicate, 0x50000000, 0xF00FFFFF⟩,
   ⟨.erase, 0x60000000, 0xF0FFFFFF⟩]

/-- A word selects a row when `w & mask = match` (R63). -/
def OpRow.selects (r : OpRow) (w : Word) : Bool := w &&& r.mask == r.pattern

/-- The row a command word selects, if any. -/
def selectRow (w : Word) : Option HostOp :=
  (opRows.find? fun r => r.selects w).map fun r => r.op

/-- Why bytes are no instruction. -/
inductive Reject where
  /-- `op` is 0x0 or 0x7 and above (R68). -/
  | illegalOpcode
  /-- a legal `op` with a nonzero bit in a must-be-zero position (R68). -/
  | reservedNonzero
  /-- the payload is not of the length the word frames (R65); `framePacket` never hands one over. -/
  | payloadLength
  /-- the core port is idle, `creq = 00` (R72). -/
  | portIdle
  /-- `creq = 11`, never driven (R72). -/
  | creqReserved
deriving DecidableEq, Repr

/-- The outcome of decoding. -/
inductive Decoded where
  | instr (i : Instr)
  | reject (r : Reject)
deriving DecidableEq, Repr

/-- Why a word that selects no row is illegal (R68). -/
def illegalReason (w : Word) : Reject :=
  if fieldOp w = 0#4 ∨ 7#4 ≤ fieldOp w then .illegalOpcode else .reservedNonzero

/-- Operand assembly of a selected row (R64): every field is taken as it stands. -/
def operands (w : Word) (payload : List Byte) : HostOp → Instr
  | .new => .new (fieldCtxD w) (fieldLow w)
  | .update => .update (fieldCtxD w) payload
  | .update1 => .update1 (fieldCtxD w) (fieldLow w)
  | .digest => .digest (fieldCtxD w)
  | .duplicate => .duplicate (fieldCtxD w) (fieldCtxS w)
  | .erase => .erase (fieldCtxD w)

/-- Decodes a command packet (R63, R64, R67, R68). -/
def decodePacket (w : Word) (payload : List Byte) : Decoded :=
  match selectRow w with
  | none => .reject (illegalReason w)
  | some op =>
    if payload.length = payloadLength w then .instr (operands w payload op)
    else .reject .payloadLength

/-- Decodes what is driven on the core port (R72): `01` = COMPRESS, `10` = FINALIZE, `00` = idle, `11` =
never driven. -/
def decodeTransaction (r : CoreRequest) : Decoded :=
  if r.creq = 1#2 then .instr (.compress r.calg r.cs r.bytes)
  else if r.creq = 2#2 then .instr (.finalize r.calg r.cs r.bytes r.fc r.tl)
  else if r.creq = 0#2 then .reject .portIdle
  else .reject .creqReserved

/-- Decodes a packet or a core request. -/
def decode : Encoded → Decoded
  | .packet w payload => decodePacket w payload
  | .transaction r => decodeTransaction r

/-- The core port with nothing driven on it (R72: `00` = idle). -/
def CoreRequest.idle : CoreRequest := ⟨0, 0, 0, [], 0, 0⟩

/-! ### Encoding, from the format table of R63 -/

/-- The command word of format N, U, B, C or D: `op ctxD ctxS rsv imm` (R62). -/
def assembleWord (op ctxD ctxS rsv : BitVec 4) (imm : BitVec 16) : Word :=
  op ++ ctxD ++ ctxS ++ rsv ++ imm

/-- The encoding of an instruction (R63 for the six commands, R72 for the two core transactions). -/
def encode : Instr → Encoded
  | .new c alg => .packet (assembleWord 1 c 0 0 (0#8 ++ alg)) []
  | .update c data => .packet (assembleWord 2 c 0 0 (BitVec.ofNat 16 data.length)) data
  | .update1 c byte => .packet (assembleWord 3 c 0 0 (0#8 ++ byte)) []
  | .digest c => .packet (assembleWord 4 c 0 0 0) []
  | .duplicate d s => .packet (assembleWord 5 d s 0 0) []
  | .erase c => .packet (assembleWord 6 c 0 0 0) []
  | .compress a cs data => .transaction ⟨1, a, cs, data, 0, 0⟩
  | .finalize a cs pb fc tl => .transaction ⟨2, a, cs, pb, fc, tl⟩

/-- The bytes of a packet on the input stream; a core transaction has none there. -/
def Encoded.streamBytes (order : Endian) : Encoded → List Byte
  | .packet w payload => wordBytes order w ++ payload
  | .transaction _ => []

/-! ### The opcode table's own numbering -/

/-- What stands beside the request code of a core transaction when only the code is given: the core that is
selected is TOY, tag 0x7F, and every operand is zero: core state 0, one block of sixteen zero bytes, fill
count 0, total length 0 (log entry 14). -/
def tableRequest (creq : BitVec 2) : CoreRequest := ⟨creq, 0x7F, 0, zeros 16, 0, 0⟩

/-- A row of the opcode table whose bits are `w`: the two 2-bit rows (at most one byte) are core
transactions, every other row is a command word with a payload of zero bytes as long as the word frames
it. -/
def tableEncoded (nbits w : Nat) : Encoded :=
  if nbits ≤ 8 then .transaction (tableRequest (BitVec.ofNat 2 w))
  else .packet (BitVec.ofNat 32 w) (zeros (payloadLength (BitVec.ofNat 32 w)))

/-- The instruction of a decoding, if it is one. -/
def Decoded.toOption : Decoded → Option Instr
  | .instr i => some i
  | .reject _ => none

/-- A core-port row has two bits (R72): a byte whose upper bits are not zero is no request. -/
def tableFits (nbits w : Nat) : Bool := if nbits ≤ 8 then w < 4 else w < 2 ^ 32

/-- The instruction the decoder reads from an instruction whose bits are `w`, numbered as
spec/opcode_table.json numbers them. A command word is laid out on the input stream in big-endian order
(the default platform's, log entry 4) and read back through the framing. -/
def decodeTableWord (nbits w : Nat) : Option Instr :=
  if tableFits nbits w then
    match tableEncoded nbits w with
    | .transaction r => (decodeTransaction r).toOption
    | .packet v payload =>
      match framePacket .be (Encoded.streamBytes .be (.packet v payload)) with
      | .packet v' payload' _ => (decodePacket v' payload').toOption
      | .needWord => none
      | .needPayload _ => none
  else none

end Sys2Proof
end

