-- ==== Sys2Proof/Machine/Table.lean ====
section
/-! DEFINITION. The algorithm table ATAB: look-ups, the functions a core supplies (`IV`, `F`, `OUT`, `CK`;
42_core_interface.md R127), and the default table (R131, R132). -/

namespace Sys2Proof

/-! ### Byte strings of a natural (00_scope.md R9) -/

/-- `LE(v, w)`: the `w`-byte little-endian encoding. -/
def bytesLE (v : Nat) : Nat → List Byte
  | 0 => []
  | w + 1 => BitVec.ofNat 8 v :: bytesLE (v / 256) w

/-- `BE(v, w)`: the `w`-byte big-endian encoding. -/
def bytesBE (v w : Nat) : List Byte := (bytesLE v w).reverse

/-! ### Look-ups -/

/-- `ATAB[a]`, a finite partial map; tag 0 is never valid (R8). -/
def Config.row? (cfg : Config) (a : BitVec 8) : Option AlgRecord :=
  if a = 0#8 then none else cfg.atab.find? fun r => r.tag == a

/-- Whether `a` is a tag defined in ATAB. -/
def Config.defines (cfg : Config) (a : BitVec 8) : Bool := (cfg.row? a).isSome

/-- `BMAX`: the largest `B` in ATAB, the physical size of each partial-block buffer (R8). -/
def Config.bmax (cfg : Config) : Nat := cfg.atab.foldr (fun r m => max r.b m) 0

/-! ### What a core supplies -/

/-- `F` of the TOY core (R132): `cs <- (cs * 33 + blk[i]) mod 2^32` for each byte in order. -/
def toyF (cs : Nat) (block : List Byte) : Nat :=
  block.foldl (fun x b => (x * 33 + b.toNat) % 2 ^ 32) cs

/-- `ATAB[a].IV`, a value of `CSW` bits (R126; log entries 2, 17). -/
def AlgRecord.iv (row : AlgRecord) : Nat :=
  (match row.core with
   | .toy => 5381
   | .published id => Config.coreIV id) % 2 ^ row.csw

/-- `ATAB[a].F`, one-block compression: a value of `CSW` bits (R122; log entries 2, 17). -/
def AlgRecord.compressBlock (row : AlgRecord) (cs : Nat) (block : List Byte) : Nat :=
  (match row.core with
   | .toy => toyF cs block
   | .published id => Config.coreF id cs block) % 2 ^ row.csw

/-- `ATAB[a].OUT`, exactly `DL` bytes, a function of the core state alone (R112). TOY: `BE(cs, 4)`. -/
def AlgRecord.output (row : AlgRecord) (cs : Nat) : List Byte :=
  match row.core with
  | .toy => bytesBE cs row.dl
  | .published id => (List.range row.dl).map fun i => Config.coreOut id cs i

/-- `ATAB[a].CK`, the `B`-byte checksum block of the MD2 policy (R110). TOY has none: zero bytes,
never used, since a TOY row is not of the MD2 policy (`AlgRecord.wf`). -/
def AlgRecord.checksum (row : AlgRecord) (cs : Nat) : List Byte :=
  match row.core with
  | .toy => zeros row.b
  | .published id => (List.range row.b).map fun i => Config.coreCK id cs i

/-! ### Legal configurations -/

/-- The largest message length in bits that a length field of `lfw` bytes holds (R103). -/
def fieldCapacity (lfw : Nat) : Nat := 2 ^ (8 * lfw) - 1

/-- A policy the hardware can be configured with (R99, R103, R110): an MDL length field fits the block
and holds every permitted length, an MD2 padding count fits a byte. -/
def Policy.wf (p : Policy) (b : Nat) : Bool :=
  match p.kind with
  | .mdl =>
    p.lfw ≤ b && (match p.maxBits with
      | some m => m ≤ fieldCapacity p.lfw
      | none => false)
  | .md2 => b ≤ 255
  | .sponge => true

/-- A legal ATAB record (10_state.md R25: `DL > 0` and `B > 0`); the TOY core has TOY's geometry (R132). -/
def AlgRecord.wf (row : AlgRecord) : Bool :=
  0 < row.b && 0 < row.dl && row.pol.wf row.b &&
    (match row.core with
     | .toy => row.b == 16 && row.dl == 4 && row.csw == 32 && row.pol.kind == .mdl
     | .published _ => true)

/-- Legal parameters (R8): `1 <= NCTX <= 16` and every record legal. -/
def Config.wf (cfg : Config) : Bool :=
  1 ≤ cfg.nctx && cfg.nctx ≤ 16 && cfg.atab.all fun r => r.wf

/-! ### The default table (R131) -/

/-- An MDL policy with the default maximum, the length field's capacity (R103). -/
def mdlPolicy (lfw : Nat) (order : Endian) : Policy :=
  { kind := .mdl, lfw := lfw, lenEndian := order, maxBits := some (fieldCapacity lfw), dom := 0 }

/-- The MD2 policy: no length field, no maximum. -/
def md2Policy : Policy := { kind := .md2, lfw := 0, lenEndian := .le, maxBits := none, dom := 0 }

/-- A sponge policy with domain byte `dom`: no length field, no maximum. -/
def spongePolicy (dom : Byte) : Policy :=
  { kind := .sponge, lfw := 0, lenEndian := .le, maxBits := none, dom := dom }

/-- The TOY test fixture, tag 0x7F (R132). -/
def toyRow : AlgRecord :=
  { tag := 0x7F, name := "TOY", b := 16, dl := 4, csw := 32, core := .toy, pol := mdlPolicy 8 .be }

/-- The default ATAB (R131), in tag order. -/
def defaultTable : List AlgRecord :=
  [{ tag := 0x01, name := "MD4", b := 64, dl := 16, csw := 128, core := .published 1, pol := mdlPolicy 8 .le },
   { tag := 0x02, name := "MD5", b := 64, dl := 16, csw := 128, core := .published 2, pol := mdlPolicy 8 .le },
   { tag := 0x03, name := "SHA-1", b := 64, dl := 20, csw := 160, core := .published 3, pol := mdlPolicy 8 .be },
   { tag := 0x04, name := "SHA-224", b := 64, dl := 28, csw := 256, core := .published 4, pol := mdlPolicy 8 .be },
   { tag := 0x05, name := "SHA-256", b := 64, dl := 32, csw := 256, core := .published 5, pol := mdlPolicy 8 .be },
   { tag := 0x06, name := "SHA-384", b := 128, dl := 48, csw := 512, core := .published 6, pol := mdlPolicy 16 .be },
   { tag := 0x07, name := "SHA-512", b := 128, dl := 64, csw := 512, core := .published 7, pol := mdlPolicy 16 .be },
   { tag := 0x08, name := "Whirlpool", b := 64, dl := 64, csw := 512, core := .published 8, pol := mdlPolicy 32 .be },
   { tag := 0x09, name := "MD2", b := 16, dl := 16, csw := 512, core := .published 9, pol := md2Policy },
   { tag := 0x0A, name := "Keccak-256", b := 136, dl := 32, csw := 1600, core := .published 10,
     pol := spongePolicy Config.keccakDom },
   { tag := 0x0B, name := "RIPEMD-160", b := 64, dl := 20, csw := 160, core := .published 11, pol := mdlPolicy 8 .le },
   { tag := 0x0C, name := "SHA-0", b := 64, dl := 20, csw := 160, core := .published 12, pol := mdlPolicy 8 .be },
   toyRow]

/-- The default parameters: `NCTX = 4` (R8), the default ATAB, command words serialised in big-endian
order (log entry 4). -/
def defaultConfig : Config := { nctx := 4, atab := defaultTable, wordOrder := .be }

end Sys2Proof
end

