-- ==== Sys2Proof/Machine/State.lean ====
section
/-! DEFINITION. The architectural state (10_state.md R13 to R29), the parameters of a step that the
machine carries (R26), the reasons a step can stop, and the machine after reset (R28). -/

namespace Sys2Proof.Machine

/-- `TAG`, the lifecycle tag of a slot (R15): 0 = Erased, 1 = Active. -/
inductive Tag where
  | erased
  | active
deriving DecidableEq, Repr

/-- `PHASE`, the hidden sequencer phase (R22). -/
inductive Phase where
  | idle
  | decode
  | uFill
  | uBulk
  | uTail
  | gSnap
  | gCheck
  | gDispatch
  | pFit
  | pSpill1
  | pSpill2
  | pMd2Pad
  | pMd2Ck
  | pSponge
  | gOut
  | respond
deriving DecidableEq, Repr

/-- A context slot, the storage of one Hasher (R14). `pb` is the physical buffer of `BMAX` bytes, of which
the first `B` are architectural (R17); `cs` is the value of the `CSW` bits (log entry 17). -/
structure Slot where
  tag : Tag
  alg : BitVec 8
  pb : List Byte
  fc : Nat
  tl : Nat
  cs : Nat
deriving DecidableEq, Repr

/-- The scratch context `S` (R24): a slot without a tag. -/
structure Scratch where
  alg : BitVec 8
  pb : List Byte
  fc : Nat
  tl : Nat
  cs : Nat
deriving DecidableEq, Repr

/-- The status of a response (60_exceptions.md R171). -/
inductive Status where
  | ok
  | eErased
  | eMsgTooLong
  | eKeyLen
  | eHmacBlockLen
  | eIllegal
  | eBadCtx
  | eBadAlg
  | eBusy
  | fInvariant
deriving DecidableEq, Repr

/-- A response: a status and the digest bytes (30_encoding.md R66). -/
structure Response where
  status : Status
  digest : List Byte
deriving DecidableEq, Repr

/-- What a core answers to a transaction on its port (42_core_interface.md R121, R124). -/
inductive CoreReply where
  /-- no transaction has been answered -/
  | none
  /-- COMPRESS: the core state after the blocks -/
  | state (cs : Nat)
  /-- FINALIZE: the digest bytes -/
  | digest (bytes : List Byte)
  /-- FINALIZE: the message is longer than the declared maximum, E_MSG_TOO_LONG -/
  | tooLong
  /-- the length check of `compress` failed, F_INVARIANT -/
  | invariant
deriving DecidableEq, Repr

/-- The state. The first five fields are the spec's architectural and hidden state (R13); `cfg`, `input`,
`out`, `rst`, `coreReq` and `coreReply` are parameters, inputs and outputs of a step (R26, log entries 1,
4, 5, 11, 13); `freeIx` is the model's own (log entry 9). -/
structure State where
  /-- the context slots `ctx[0] .. ctx[NCTX-1]` -/
  ctx : List Slot
  /-- the sticky fault latch `FAULT` (R23) -/
  fault : Bool
  /-- the scratch context `S` (R24) -/
  scratch : Scratch
  /-- the sequencer phase `PHASE` (R22) -/
  phase : Phase
  /-- the parameters of the hardware (00_scope.md R8) -/
  cfg : Config
  /-- the bytes delivered by the host and not yet consumed, the oldest first -/
  input : List Byte
  /-- the responses returned so far, the oldest first -/
  out : List Response
  /-- the reset input (70_reset_and_hazards.md R195) -/
  rst : Bool
  /-- what is driven on the core port (30_encoding.md R72) -/
  coreReq : CoreRequest
  /-- the answer to the last core transaction served from the core port -/
  coreReply : CoreReply
  /-- the index of the next free value -/
  freeIx : Nat
deriving DecidableEq, Repr

/-- Why the machine stops: no step exists until the host delivers more bytes. Every error the engine
itself reports is a response, hence a next state (60_exceptions.md R182). -/
inductive Fault where
  /-- Raised by `step` when the input holds no whole command word: the engine is idle and waits for a
  packet (70_reset_and_hazards.md R197). Safe: nothing is claimed of the wait (log entry 6). -/
  | awaitingCommand
  /-- Raised by `step` when the input holds a command word and fewer payload bytes than it promises: the
  engine waits, without time-out (R201; 93_implementation_defined.md U9, stuck). Safe (log entry 6). -/
  | awaitingPayload
deriving DecidableEq, Repr

/-- Why a step has no meaning. -/
inductive Refusal where
  /-- Raised by an arm of `exec` whose instruction has no meaning yet; no arm does. Safe. -/
  | notModelled (mnemonic : String)
  /-- Raised by UPDATE, UPDATE1, DIGEST, COMPRESS and FINALIZE when the tag of the slot or of the request
  is not defined in ATAB, which no reachable slot has (10_state.md R21 item 2). Safe (log entry 12). -/
  | algUndefined
  /-- Raised by FINALIZE when its partial block is not of `B` bytes or its fill count not below `B`
  (42_core_interface.md R124). Safe (log entry 12). -/
  | finalizeContract
  /-- Raised by `step` when `creq = 11`, a code that is never driven (30_encoding.md R72). Safe (log entry
  19). -/
  | creqNeverDriven
  /-- Raised by `step` when a command is executing: a packet begun before the previous response has no
  step (20_memory.md R53, 93_implementation_defined.md U1). Safe (log entry 7). -/
  | overlappingPacket
deriving DecidableEq, Repr

/-- The canonical erased slot (R28) with `bmax` bytes of storage. -/
def Slot.canonical (bmax : Nat) : Slot :=
  { tag := .erased, alg := 0, pb := zeros bmax, fc := 0, tl := 0, cs := 0 }

/-- The scratch context with every field zero (R24, R28). -/
def Scratch.zero (bmax : Nat) : Scratch :=
  { alg := 0, pb := zeros bmax, fc := 0, tl := 0, cs := 0 }

/-- The machine of parameters `cfg` right after reset (R28, 70_reset_and_hazards.md R196): every slot the
canonical erased slot, `S` zero, `FAULT` 0, `PHASE` IDLE; nothing delivered, nothing answered. -/
def State.initial (cfg : Config) : State :=
  { ctx := List.replicate cfg.nctx (Slot.canonical cfg.bmax)
    fault := false
    scratch := Scratch.zero cfg.bmax
    phase := .idle
    cfg := cfg
    input := []
    out := []
    rst := false
    coreReq := CoreRequest.idle
    coreReply := .none
    freeIx := 0 }

/-- The machine right after reset, with the default parameters (R8, R131). -/
def State.reset : State := State.initial defaultConfig

end Sys2Proof.Machine
end

