-- ==== Sys2Proof/Machine/Operands.lean ====
section
/-! DEFINITION. Operand access: context slots by index, the bytes of a partial-block buffer, and the
table row of an algorithm tag (10_state.md R14 to R18, 20_memory.md R40, R42). -/

namespace Sys2Proof.Machine

/-! ### Context slots -/

/-- Context slot number `c`. Beyond the slots there is nothing: such an index is refused before any slot
is looked at (20_memory.md R41), and reads here as the canonical erased slot (log entry 20). -/
def State.slot (s : State) (c : Nat) : Slot := s.ctx.getD c (Slot.canonical s.cfg.bmax)

/-- `ctx[c] <- sl`: writes one slot and no other (R21 item 4). -/
def State.setSlot (s : State) (c : Nat) (sl : Slot) : State := { s with ctx := s.ctx.set c sl }

/-- `ATAB[ctx[c].ALG]`. -/
def State.slotRow? (s : State) (c : Nat) : Option AlgRecord := s.cfg.row? (s.slot c).alg

/-! ### Bytes of a partial-block buffer -/

/-- `PB[at + j] <- data[j]` for each byte of `data` in order; a byte outside the storage is not stored. -/
def writeAt (pb : List Byte) (at_ : Nat) : List Byte → List Byte
  | [] => pb
  | b :: bs => writeAt (pb.set at_ b) (at_ + 1) bs

/-- The pending bytes `PB[0 .. FC-1]` of a slot (20_memory.md R42). -/
def Slot.pending (sl : Slot) : List Byte := sl.pb.take sl.fc

/-- The architectural buffer `PB[0 .. B-1]` (R17). -/
def archBuffer (row : AlgRecord) (pb : List Byte) : List Byte := pb.take row.b

end Sys2Proof.Machine
end

