-- ==== Sys2Proof/Machine/Flags.lean ====
section
/-! DEFINITION. The two status bits, `TAG` and `FAULT` (10_state.md R23), the status codes
(60_exceptions.md R171), and the checks a command makes in their fixed order (R180). -/

namespace Sys2Proof.Machine

/-! ### Status bits -/

/-- The coding of `TAG`: 0 = Erased, 1 = Active (R14). -/
def Tag.bit : Tag → BitVec 1
  | .erased => 0
  | .active => 1

/-- Whether slot `c` is Active. -/
def State.isActive (s : State) (c : Nat) : Bool := (s.slot c).tag == .active

/-- Whether slot `c` is Erased: by ERASE, or never created since reset (R15). -/
def State.isErased (s : State) (c : Nat) : Bool := (s.slot c).tag == .erased

/-- The level of the `fault` output (R185, 92_eei_decisions.md D23). -/
def State.faultPin (s : State) : Bool := s.fault

/-! ### Status codes -/

/-- The 8-bit code of a status (R171). -/
def Status.code : Status → BitVec 8
  | .ok => 0x00
  | .eErased => 0x01
  | .eMsgTooLong => 0x02
  | .eKeyLen => 0x03
  | .eHmacBlockLen => 0x04
  | .eIllegal => 0x10
  | .eBadCtx => 0x11
  | .eBadAlg => 0x12
  | .eBusy => 0x13
  | .fInvariant => 0x80

/-- The class of a status (R171). -/
def Status.isUsageError : Status → Bool
  | .ok => false
  | .fInvariant => false
  | .eErased => true
  | .eMsgTooLong => true
  | .eKeyLen => true
  | .eHmacBlockLen => true
  | .eIllegal => true
  | .eBadCtx => true
  | .eBadAlg => true
  | .eBusy => true

/-- A code reserved for host software, which SHE never returns (R187). -/
def Status.isReserved : Status → Bool
  | .eKeyLen => true
  | .eHmacBlockLen => true
  | .ok => false
  | .fInvariant => false
  | .eErased => false
  | .eMsgTooLong => false
  | .eIllegal => false
  | .eBadCtx => false
  | .eBadAlg => false
  | .eBusy => false

/-- The bytes of a response on the wire: the status byte, then the digest bytes, index 0 first (30_encoding.md
R66, 41_digest_padding.md R97). -/
def Response.wire (r : Response) : List Byte := r.status.code :: r.digest

/-! ### Checks (R180) -/

/-- The status of the first check that fires; later ones are not evaluated (R180). -/
def firstFailing : List (Bool × Status) → Option Status
  | [] => none
  | (fires, st) :: rest => if fires then some st else firstFailing rest

/-- Check 1: `FAULT = 1` (every packet). -/
def State.checkFault (s : State) : Bool × Status := (s.fault, .fInvariant)

/-- Check 3: a used context index at or beyond `NCTX` (R178). -/
def State.checkCtx (s : State) (c : BitVec 4) : Bool × Status := (decide (s.cfg.nctx ≤ c.toNat), .eBadCtx)

/-- Check 4: an algorithm tag ATAB does not define (NEW). -/
def State.checkAlg (s : State) (alg : BitVec 8) : Bool × Status := (!s.cfg.defines alg, .eBadAlg)

/-- Check 5: a slot that must be Active is Erased (R174). -/
def State.checkErased (s : State) (c : BitVec 4) : Bool × Status := (s.isErased c.toNat, .eErased)

/-- Check 6: a slot that must be Erased is Active. -/
def State.checkBusy (s : State) (c : BitVec 4) : Bool × Status := (s.isActive c.toNat, .eBusy)

/-- The checks of NEW before its first write (43_lifecycle.md R141). -/
def State.refusesNew (s : State) (c : BitVec 4) (alg : BitVec 8) : Option Status :=
  firstFailing [s.checkFault, s.checkCtx c, s.checkAlg alg, s.checkBusy c]

/-- The checks of UPDATE, UPDATE1, DIGEST and ERASE before their first write (40_update.md R81, R84,
41_digest_padding.md R96, 43_lifecycle.md R148). -/
def State.refusesUse (s : State) (c : BitVec 4) : Option Status :=
  firstFailing [s.checkFault, s.checkCtx c, s.checkErased c]

/-- The checks of DUPLICATE: the source's before the destination's (R144). -/
def State.refusesDuplicate (s : State) (d src : BitVec 4) : Option Status :=
  firstFailing [s.checkFault, s.checkCtx d, s.checkCtx src, s.checkErased src, s.checkBusy d]

end Sys2Proof.Machine
end

