-- ==== Sys2Proof/Machine/Ops.lean ====
section
/-! DEFINITION. The shared operations: accepting a packet, ending a command with its response, taking an
error, reset, the `compress` contract, the scratch context, and what an invariant violation leaves. -/

namespace Sys2Proof.Machine

/-! ### Commands begin and end -/

/-- A packet is accepted: it leaves the input whole, payload included (30_encoding.md R65), and the sequencer
leaves IDLE (10_state.md R22). -/
def State.accept (s : State) (rest : List Byte) : State := { s with input := rest, phase := .decode }

/-- `respond(status, bytes)`: ends the command with exactly one response and returns the sequencer to IDLE
(30_encoding.md R66, 41_digest_padding.md R102). -/
def State.respond (s : State) (st : Status) (digest : List Byte) : State :=
  { s with out := s.out ++ [{ status := st, digest := digest }], phase := .idle }

/-- `raise E`, taking an error: the command ends, the response carries the status and no bytes; nothing is
saved, no mode or mask changes, control goes nowhere (60_exceptions.md R172, R182). The return from it is
the host's next packet: there is nothing to restore (R183). -/
def State.raise (s : State) (st : Status) : State := s.respond st []

/-- A packet whose word selects no row: check 1, then `E_ILLEGAL` on the word alone (R177, R180). -/
def State.raiseIllegal (s : State) : State :=
  match firstFailing [s.checkFault] with
  | some st => s.raise st
  | none => s.raise .eIllegal

/-! ### Reset -/

/-- The reset action (70_reset_and_hazards.md R195, R196): the machine of the same parameters with every
slot erased, `S` zero, `FAULT` 0, `PHASE` IDLE; a packet in flight is abandoned without a response. The
responses already returned are the host's (41_digest_padding.md R97). The input `rst` is released
(log entry 13). -/
def State.hardwareReset (s : State) : State :=
  { State.initial s.cfg with out := s.out, freeIx := s.freeIx }

/-! ### The `compress` contract (42_core_interface.md R121) -/

/-- Folds `m` consecutive blocks of `B` bytes into a core state, in order. -/
def foldBlocks (row : AlgRecord) : (m : Nat) → (cs : Nat) → (data : List Byte) → Nat
  | 0, cs, _ => cs
  | m + 1, cs, data => foldBlocks row m (row.compressBlock cs (data.take row.b)) (data.drop row.b)

/-- `compress(a, cs, data)`: none when the byte count is not a multiple of `B`, the invariant violation of
R123; else the fold of `F` over the blocks. -/
def compress (row : AlgRecord) (cs : Nat) (data : List Byte) : Option Nat :=
  if data.length % row.b = 0 then some (foldBlocks row (data.length / row.b) cs data) else none

/-! ### The scratch context (10_state.md R24) -/

/-- `S <- ctx[c]`: a deep copy of every field (41_digest_padding.md R96, PHASE G_SNAP). -/
def Slot.toScratch (sl : Slot) : Scratch :=
  { alg := sl.alg, pb := sl.pb, fc := sl.fc, tl := sl.tl, cs := sl.cs }

/-- PHASE G_SNAP of DIGEST. -/
def State.snapshot (s : State) (c : Nat) : State :=
  { s with scratch := (s.slot c).toScratch, phase := .gSnap }

/-- `S <- all zero`: the duplicate is discarded (R24). -/
def State.discardScratch (s : State) : State := { s with scratch := Scratch.zero s.cfg.bmax }

/-! ### An invariant violation (60_exceptions.md R176; log entry 8) -/

/-- `BMAX` bytes of any value, the `k`-th free ones. -/
def freeBuffer (bmax k : Nat) : List Byte := (List.range bmax).map fun i => Config.abortedByte k i

/-- A slot whose UPDATE was aborted inside `compress`: `PB`, `FC` and `CS` were partly written and are any
value (93_implementation_defined.md U7); `TAG`, `ALG` and `TL` had not been written. -/
def Slot.partlyWritten (sl : Slot) (bmax k : Nat) : Slot :=
  { sl with pb := freeBuffer bmax k, fc := Config.abortedFill k, cs := Config.abortedCore k }

/-- UPDATE or UPDATE1 on slot `c` aborts: `FAULT <- 1`, the slot stays partly written, the response is
`F_INVARIANT` (R123, R176). -/
def State.abortUpdate (s : State) (c : Nat) : State :=
  State.raise
    { s.setSlot c ((s.slot c).partlyWritten s.cfg.bmax s.freeIx) with
      fault := true, freeIx := s.freeIx + 1 }
    .fInvariant

/-- DIGEST aborts: `FAULT <- 1`, `PB` and `CS` of the scratch context stay partly written, the response is
`F_INVARIANT`; no slot was written (R115, R176). -/
def State.abortDigest (s : State) : State :=
  State.raise
    { s with
      scratch := { s.scratch with
        pb := freeBuffer s.cfg.bmax s.freeIx
        cs := Config.abortedCore s.freeIx }
      fault := true
      freeIx := s.freeIx + 1 }
    .fInvariant

end Sys2Proof.Machine
end

