-- ==== Sys2Proof/Machine/Accumulate.lean ====
section
/-! DEFINITION. Input accumulation: `absorb` and the commands UPDATE and UPDATE1 (40_update.md R80 to R89). -/

namespace Sys2Proof.Machine

/-- Step 1 of `absorb` (R82; PHASE U_FILL): a non-empty partial block is filled up from the input, and
compressed at once if it becomes full. Answers the slot and the input left; none is the invariant
violation of `compress`. -/
def absorbFill (row : AlgRecord) (sl : Slot) (data : List Byte) : Option (Slot × List Byte) :=
  if 0 < sl.fc then
    let k := min (row.b - sl.fc) data.length
    let pb := writeAt sl.pb sl.fc (data.take k)
    if sl.fc + k = row.b then
      match compress row sl.cs (archBuffer row pb) with
      | some cs => some ({ sl with pb := pb, fc := 0, cs := cs }, data.drop k)
      | none => none
    else some ({ sl with pb := pb, fc := sl.fc + k }, data.drop k)
  else some (sl, data)

/-- Step 2 of `absorb` (R82; PHASE U_BULK): all whole blocks of the input are compressed; no call is made
for zero blocks (R86). -/
def absorbBulk (row : AlgRecord) (sl : Slot) (data : List Byte) : Option (Slot × List Byte) :=
  let m := data.length / row.b
  if 0 < m then
    match compress row sl.cs (data.take (m * row.b)) with
    | some cs => some ({ sl with cs := cs }, data.drop (m * row.b))
    | none => none
  else some (sl, data)

/-- Step 3 of `absorb` (R82; PHASE U_TAIL): the tail is copied into the partial block. -/
def absorbTail (sl : Slot) (data : List Byte) : Slot :=
  { sl with pb := writeAt sl.pb sl.fc data, fc := sl.fc + data.length }

/-- `absorb(c, data)` on the slot (R82); step 4 adds `n` to `TL`. None is the invariant violation of a
`compress` call. -/
def absorb (row : AlgRecord) (sl : Slot) (data : List Byte) : Option Slot :=
  match absorbFill row sl data with
  | none => none
  | some p =>
    match absorbBulk row p.1 p.2 with
    | none => none
    | some q =>
      let t := absorbTail q.1 q.2
      some { t with tl := t.tl + data.length }

/-- What UPDATE and UPDATE1 share (R81, R84): the checks, `absorb`, the response. -/
def updateWith (c : BitVec 4) (data : List Byte) (s : State) : Host.Outcome State Fault Refusal :=
  match s.refusesUse c with
  | some st => .next (s.raise st)
  | none =>
    match s.slotRow? c.toNat with
    | none => .refused .algUndefined
    | some row =>
      match absorb row (s.slot c.toNat) data with
      | some sl => .next ((s.setSlot c.toNat sl).respond .ok [])
      | none => .next (s.abortUpdate c.toNat)

/-- `UPDATE c, data`: absorb the payload (R81). -/
def execUpdate (c : BitVec 4) (data : List Byte) (s : State) : Host.Outcome State Fault Refusal :=
  updateWith c data s

/-- `UPDATE1 c, byte`: absorb one byte, `absorb(c, [byte])` (R84). -/
def execUpdate1 (c : BitVec 4) (byte : Byte) (s : State) : Host.Outcome State Fault Refusal :=
  updateWith c [byte] s

end Sys2Proof.Machine
end

