-- ==== Sys2Proof/Machine/Padding.lean ====
section
/-! DEFINITION. The padding paths, `finalizeDestructively` (41_digest_padding.md R99 to R113), and the
dispatch as a finite-state machine over the scratch context (R102). -/

namespace Sys2Proof.Machine

/-! ### The length check and the length field (R103, R104) -/

/-- `8*TL > maxBits`: the message is longer than the algorithm's declared maximum (R103). -/
def tooLong (row : AlgRecord) (tl : Nat) : Bool :=
  match row.pol.maxBits with
  | some m => m < 8 * tl
  | none => false

/-- The length field `lf`: the message length in bits, `LFW` bytes in the policy's order (R104). -/
def lengthField (row : AlgRecord) (tl : Nat) : List Byte :=
  match row.pol.lenEndian with
  | .le => bytesLE (8 * tl) row.pol.lfw
  | .be => bytesBE (8 * tl) row.pol.lfw

/-! ### Blocks of the padded message -/

/-- `P[B-LFW .. B-1] <- lf` on a block of `B` bytes. -/
def placeLengthField (row : AlgRecord) (p lf : List Byte) : List Byte :=
  p.take (row.b - row.pol.lfw) ++ lf

/-- The common first step of both MDL paths: `P[f] <- 0x80`, zeros after it (R105). -/
def markedBlock (row : AlgRecord) (pb : List Byte) (f : Nat) : List Byte :=
  pb.take f ++ 0x80#8 :: zeros (row.b - f - 1)

/-- The one block of `P_FIT` (R106). -/
def fitBlock (row : AlgRecord) (pb : List Byte) (f tl : Nat) : List Byte :=
  placeLengthField row (markedBlock row pb f) (lengthField row tl)

/-- The extra block `Q` of the spill path: all zero but for the length field (R107). -/
def lengthBlock (row : AlgRecord) (tl : Nat) : List Byte :=
  placeLengthField row (zeros row.b) (lengthField row tl)

/-- The fit predicate, `f + 1 + LFW <= B` (R109). -/
def fits (row : AlgRecord) (f : Nat) : Bool := f + 1 + row.pol.lfw ≤ row.b

/-- The first block of the MD2 path: `q = B - f` bytes of value `q` (R110). -/
def md2Block (row : AlgRecord) (pb : List Byte) (f : Nat) : List Byte :=
  pb.take f ++ rep (BitVec.ofNat 8 (row.b - f)) (row.b - f)

/-- The block of the SPONGE path: the domain byte, zeros, and 0x80 or-ed into the last byte (R111). -/
def spongeBlock (row : AlgRecord) (pb : List Byte) (f : Nat) : List Byte :=
  (pb.take f ++ row.pol.dom :: zeros (row.b - f - 1)).modify (row.b - 1) fun x => x ||| 0x80#8

/-! ### The paths: none is the invariant violation of the `compress` they make -/

/-- `P_FIT` (R106). -/
def padFit (row : AlgRecord) (cs : Nat) (pb : List Byte) (f tl : Nat) : Option Nat :=
  compress row cs (fitBlock row pb f tl)

/-- `P_SPILL1`, `P_SPILL2` (R107). -/
def padSpill (row : AlgRecord) (cs : Nat) (pb : List Byte) (f tl : Nat) : Option Nat :=
  match compress row cs (markedBlock row pb f) with
  | some cs1 => compress row cs1 (lengthBlock row tl)
  | none => none

/-- `P_MD2_PAD`, `P_MD2_CK` (R110). -/
def padMd2 (row : AlgRecord) (cs : Nat) (pb : List Byte) (f : Nat) : Option Nat :=
  match compress row cs (md2Block row pb f) with
  | some cs1 => compress row cs1 (row.checksum cs1)
  | none => none

/-- `P_SPONGE` (R111). -/
def padSponge (row : AlgRecord) (cs : Nat) (pb : List Byte) (f : Nat) : Option Nat :=
  compress row cs (spongeBlock row pb f)

/-- PHASE G_DISPATCH and the path it selects (R101, R102). -/
def padDispatch (row : AlgRecord) (cs : Nat) (pb : List Byte) (f tl : Nat) : Option Nat :=
  match row.pol.kind with
  | .mdl => if fits row f then padFit row cs pb f tl else padSpill row cs pb f tl
  | .md2 => padMd2 row cs pb f
  | .sponge => padSponge row cs pb f

/-- What `finalizeDestructively` answers. -/
inductive FinalResult where
  /-- the digest, `DL` bytes -/
  | digest (bytes : List Byte)
  /-- E_MSG_TOO_LONG -/
  | tooLong
  /-- the length check of a `compress` call failed -/
  | violation
deriving DecidableEq, Repr

/-- `finalizeDestructively(a, cs, pb, fc, tl)` (R101): length check, padding dispatch, serialisation. -/
def finalizeDestructively (row : AlgRecord) (cs : Nat) (pb : List Byte) (fc tl : Nat) : FinalResult :=
  if tooLong row tl then .tooLong
  else
    match padDispatch row cs pb fc tl with
    | some cs' => .digest (row.output cs')
    | none => .violation

/-! ### The dispatch as a finite-state machine (R102)

The rows of R102, one arm each, over the scratch context. The command DIGEST is one atomic step of the
machine (10_state.md R22); this is its inside. -/

/-- A DIGEST under way: the phase, the scratch context, the result it has come to, and the response once
it is sent. -/
structure DigestRun where
  phase : Phase
  scratch : Scratch
  result : Option Response
  sent : Option Response
deriving DecidableEq, Repr

/-- The first row: a DIGEST packet accepted, all checks passed; `ctx[c]` is copied to `S`. -/
def digestStart (sl : Slot) : DigestRun :=
  { phase := .gSnap, scratch := sl.toScratch, result := none, sent := none }

/-- A padding phase that hands `block` to `compress` and goes on to `after`; a violation ends the command. -/
def DigestRun.feed (r : DigestRun) (row : AlgRecord) (block : List Byte) (after : Phase) : DigestRun :=
  match compress row r.scratch.cs block with
  | some cs => { r with scratch := { r.scratch with cs := cs }, phase := after }
  | none => { r with result := some { status := .fInvariant, digest := [] }, phase := .respond }

/-- One transition (R102). `bmax` is the size of the scratch buffer. -/
def digestNext (row : AlgRecord) (bmax : Nat) (r : DigestRun) : DigestRun :=
  match r.phase with
  | .gSnap => { r with phase := .gCheck }
  | .gCheck =>
    if tooLong row r.scratch.tl then
      { r with result := some { status := .eMsgTooLong, digest := [] }, phase := .respond }
    else { r with phase := .gDispatch }
  | .gDispatch =>
    match row.pol.kind with
    | .mdl => if fits row r.scratch.fc then { r with phase := .pFit } else { r with phase := .pSpill1 }
    | .md2 => { r with phase := .pMd2Pad }
    | .sponge => { r with phase := .pSponge }
  | .pFit => r.feed row (fitBlock row (archBuffer row r.scratch.pb) r.scratch.fc r.scratch.tl) .gOut
  | .pSpill1 => r.feed row (markedBlock row (archBuffer row r.scratch.pb) r.scratch.fc) .pSpill2
  | .pSpill2 => r.feed row (lengthBlock row r.scratch.tl) .gOut
  | .pMd2Pad => r.feed row (md2Block row (archBuffer row r.scratch.pb) r.scratch.fc) .pMd2Ck
  | .pMd2Ck => r.feed row (row.checksum r.scratch.cs) .gOut
  | .pSponge => r.feed row (spongeBlock row (archBuffer row r.scratch.pb) r.scratch.fc) .gOut
  | .gOut =>
    { r with result := some { status := .ok, digest := row.output r.scratch.cs }, phase := .respond }
  | .respond => { r with sent := r.result, scratch := Scratch.zero bmax, phase := .idle }
  | .idle => r
  | .decode => r
  | .uFill => r
  | .uBulk => r
  | .uTail => r

/-- `n` transitions. -/
def digestIterate (row : AlgRecord) (bmax : Nat) : Nat → DigestRun → DigestRun
  | 0, r => r
  | n + 1, r => digestIterate row bmax n (digestNext row bmax r)

end Sys2Proof.Machine
end

