-- ==== Sys2Proof/Machine/CorePort.lean ====
section
/-! DEFINITION. The two core transactions, as the core port serves them (42_core_interface.md R120 to R129,
30_encoding.md R72; log entry 11). They answer on the core port, not to the host. -/

namespace Sys2Proof.Machine

/-- `COMPRESS(a, cs, data)`: fold whole blocks into a core state; a byte count that is no multiple of `B`
latches `FAULT` (R121, R123). -/
def execCompress (a : BitVec 8) (cs : Nat) (data : List Byte) (s : State) :
    Host.Outcome State Fault Refusal :=
  match s.cfg.row? a with
  | none => .refused .algUndefined
  | some row =>
    match compress row cs data with
    | some cs' => .next { s with coreReply := .state cs' }
    | none => .next { s with fault := true, coreReply := .invariant }

/-- `FINALIZE(a, cs, pb, fc, tl)`: the digest, or E_MSG_TOO_LONG (R124), for a partial block of `B` bytes
and a fill count below `B`. -/
def execFinalize (a : BitVec 8) (cs : Nat) (pb : List Byte) (fc tl : Nat) (s : State) :
    Host.Outcome State Fault Refusal :=
  match s.cfg.row? a with
  | none => .refused .algUndefined
  | some row =>
    if pb.length = row.b ∧ fc < row.b then
      match finalizeDestructively row cs pb fc tl with
      | .digest bytes => .next { s with coreReply := .digest bytes }
      | .tooLong => .next { s with coreReply := .tooLong }
      | .violation => .next { s with fault := true, coreReply := .invariant }
    else .refused .finalizeContract

end Sys2Proof.Machine
end

