-- ==== Sys2Proof/Machine/Digest.lean ====
section
/-! DEFINITION. The command DIGEST (41_digest_padding.md R95 to R98, R115, R116). -/

namespace Sys2Proof.Machine

/-- `finalizeDestructively` on the scratch context, then the scratch context is discarded and the response
sent (R96). -/
def finishDigest (row : AlgRecord) (s : State) : State :=
  match finalizeDestructively row s.scratch.cs (archBuffer row s.scratch.pb) s.scratch.fc s.scratch.tl with
  | .digest bytes => s.discardScratch.respond .ok bytes
  | .tooLong => s.discardScratch.raise .eMsgTooLong
  | .violation => s.abortDigest

/-- `DIGEST c`: the digest of the message absorbed so far by slot `c`, computed on a copy (R96). -/
def execDigest (c : BitVec 4) (s : State) : Host.Outcome State Fault Refusal :=
  match s.refusesUse c with
  | some st => .next (s.raise st)
  | none =>
    match s.slotRow? c.toNat with
    | none => .refused .algUndefined
    | some row => .next (finishDigest row (s.snapshot c.toNat))

end Sys2Proof.Machine
end

