-- ==== Sys2Proof/Machine/Lifecycle.lean ====
section
/-! DEFINITION. The lifecycle commands NEW, DUPLICATE and ERASE (43_lifecycle.md R140 to R152). -/

namespace Sys2Proof.Machine

/-- The slot NEW makes of an Erased one (R141): `PB <- zeros(B)`, `FC`, `TL` zero, `CS <- IV`. Storage at
index `B` and above is not written (10_state.md R17). -/
def freshSlot (row : AlgRecord) (alg : BitVec 8) (old : Slot) : Slot :=
  { tag := .active
    alg := alg
    pb := writeAt old.pb 0 (zeros row.b)
    fc := 0
    tl := 0
    cs := row.iv }

/-- `NEW c, alg`: create a Hasher (R141). -/
def execNew (c : BitVec 4) (alg : BitVec 8) (s : State) : Host.Outcome State Fault Refusal :=
  match s.refusesNew c alg with
  | some st => .next (s.raise st)
  | none =>
    match s.cfg.row? alg with
    | none => .next (s.raise .eBadAlg)
    | some row => .next ((s.setSlot c.toNat (freshSlot row alg (s.slot c.toNat))).respond .ok [])

/-- The slot DUPLICATE makes: a deep copy of every field of the source, stale bytes included (R144). -/
def copySlot (src : Slot) : Slot :=
  { tag := .active
    alg := src.alg
    pb := src.pb
    fc := src.fc
    tl := src.tl
    cs := src.cs }

/-- `DUPLICATE d, s`: make slot `d` an independent copy of the Hasher in slot `s` (R144). -/
def execDuplicate (d src : BitVec 4) (s : State) : Host.Outcome State Fault Refusal :=
  match s.refusesDuplicate d src with
  | some st => .next (s.raise st)
  | none => .next ((s.setSlot d.toNat (copySlot (s.slot src.toNat))).respond .ok [])

/-- `ERASE c`: every byte of the physical buffer, the core state, the counters and the tags zeroed: the
canonical erased slot (R148, 10_state.md R28). -/
def execErase (c : BitVec 4) (s : State) : Host.Outcome State Fault Refusal :=
  match s.refusesUse c with
  | some st => .next (s.raise st)
  | none => .next ((s.setSlot c.toNat (Slot.canonical s.cfg.bmax)).respond .ok [])

end Sys2Proof.Machine
end

