-- ==== Sys2Proof/Machine/Dispatch.lean ====
section
/-! DEFINITION. One arm per instruction: the meaning it calls. -/

namespace Sys2Proof.Machine

def exec (i : Instr) (s : State) : Host.Outcome State Fault Refusal :=
  match i with
  | .new c alg => Sys2Proof.Machine.execNew c alg s
  | .update c data => Sys2Proof.Machine.execUpdate c data s
  | .update1 c byte => Sys2Proof.Machine.execUpdate1 c byte s
  | .digest c => Sys2Proof.Machine.execDigest c s
  | .duplicate d src => Sys2Proof.Machine.execDuplicate d src s
  | .erase c => Sys2Proof.Machine.execErase c s
  | .compress a cs data => Sys2Proof.Machine.execCompress a cs data s
  | .finalize a cs pb fc tl => Sys2Proof.Machine.execFinalize a cs pb fc tl s

end Sys2Proof.Machine
end

