-- ==== Sys2Proof/Machine/Fetch.lean ====
section
/-! DEFINITION. What the sequencer does next: reset, a core transaction, the packet at the front of the
input, or nothing (30_encoding.md R60, R65, 70_reset_and_hazards.md R195, R200, R201). -/

namespace Sys2Proof.Machine

/-- What comes next, and the state in which it is carried out. -/
inductive Fetched where
  /-- the reset input is asserted -/
  | reset
  /-- an instruction was decoded; the request or packet that held it is consumed -/
  | run (i : Instr) (s : State)
  /-- a whole packet whose word selects no row; it is consumed -/
  | illegal (s : State)
  /-- no step exists until more bytes arrive -/
  | wait (f : Fault)
  /-- no meaning -/
  | stop (r : Refusal)
deriving DecidableEq, Repr

/-- The packet at the front of the input, if the sequencer is IDLE (R53, R200) and it is whole (R201). -/
def fetchPacket (s : State) : Fetched :=
  if s.phase = .idle then
    match framePacket s.cfg.wordOrder s.input with
    | .needWord => .wait .awaitingCommand
    | .needPayload _ => .wait .awaitingPayload
    | .packet w payload rest =>
      match decodePacket w payload with
      | .instr i => .run i (s.accept rest)
      | .reject _ => .illegal (s.accept rest)
  else .stop .overlappingPacket

/-- What comes next: reset first, then what is driven on the core port, then the next packet (log entries
11, 13). -/
def fetch (s : State) : Fetched :=
  if s.rst then .reset
  else
    match decodeTransaction s.coreReq with
    | .instr i => .run i { s with coreReq := CoreRequest.idle }
    | .reject .portIdle => fetchPacket s
    | .reject .creqReserved => .stop .creqNeverDriven
    | .reject .illegalOpcode => .stop .creqNeverDriven
    | .reject .reservedNonzero => .stop .creqNeverDriven
    | .reject .payloadLength => .stop .creqNeverDriven

/-- The input on which a table row's instruction is the next one: a core request on the port, or a packet
at the front of the input (log entry 14). -/
def State.deliver (s : State) : Encoded → State
  | .transaction r => { s with rst := false, coreReq := r }
  | .packet w payload =>
    { s with
      rst := false
      coreReq := CoreRequest.idle
      phase := .idle
      input := Encoded.streamBytes s.cfg.wordOrder (.packet w payload) ++ s.input }

end Sys2Proof.Machine
end

