-- ==== Sys2Proof/Machine/Step.lean ====
section
/-! DEFINITION. One step of the machine: one command transaction (00_scope.md R7), one core transaction, or
one reset. -/

namespace Sys2Proof.Machine

/-- One step (R6, R7): what comes next, carried out to completion. -/
def step (s : State) : Host.Outcome State Fault Refusal :=
  match fetch s with
  | .reset => .next s.hardwareReset
  | .run i t => exec i t
  | .illegal t => .next t.raiseIllegal
  | .wait f => .fault f
  | .stop r => .refused r

/-- `s` with the instruction whose table bits are `w` delivered as the next one: a core request on the core
port for the two 2-bit rows, else the command word, and the payload of zero bytes it frames, at the front of
the input (log entry 14). -/
def State.withFetchWord (s : State) (nbits w : Nat) : State := s.deliver (tableEncoded nbits w)

end Sys2Proof.Machine
end

