-- ==== Sys2Proof/Machine/Assembler.lean ====
section
/-! DEFINITION. The assembler text of the commands (30_encoding.md R70) and the expansions of the
pseudo-instructions (R71). -/

namespace Sys2Proof.Machine

/-! ### Pseudo-instructions (R71) -/

/-- The pseudo-instructions of R71. -/
inductive Pseudo where
  /-- `UPDATEL c, data`: an update of any length (that it is one at 65535 bytes and below is the model's
  choice, log entry 21) -/
  | updatel (c : BitVec 4) (data : List Byte)
  /-- `HASH c, ALG, data`: one-shot hash leaving the slot erased -/
  | hash (c : BitVec 4) (alg : BitVec 8) (data : List Byte)
  /-- `SNAPSHOT d, s` -/
  | snapshot (d s : BitVec 4)
deriving DecidableEq, Repr

/-- Cuts data into pieces of `NMAX` bytes, the last one with what remains, omitted when that is nothing.
`fuel` bounds the number of pieces. -/
def splitPieces : (fuel : Nat) → List Byte → List (List Byte)
  | 0, _ => []
  | _ + 1, [] => []
  | fuel + 1, b :: bs => (b :: bs).take nmax :: splitPieces fuel ((b :: bs).drop nmax)

/-- `UPDATEL c, data` as UPDATE commands. R71 gives the expansion for more than 65535 bytes only, and lets HASH
use it for any data. DESIGN CHOICE (log entry 21): the same cut is made at every length, so that 1 to 65535
bytes are one UPDATE and no bytes are no command at all, not `UPDATE c, <>`. Unsafe for a claim that counts or
reads the responses of an UPDATEL or HASH of no data; safe otherwise, since either way the logical state is the
same (40_update.md R83, R88). -/
def expandUpdateL (c : BitVec 4) (data : List Byte) : List Instr :=
  (splitPieces data.length data).map fun piece => .update c piece

/-- The expansion of a pseudo-instruction. -/
def Pseudo.expand : Pseudo → List Instr
  | .updatel c data => expandUpdateL c data
  | .hash c alg data => .new c alg :: (expandUpdateL c data ++ [.digest c, .erase c])
  | .snapshot d s => [.duplicate d s]

/-! ### Text (R70) -/

/-- A hexadecimal digit, lower case. -/
def hexDigit (n : Nat) : Char := if n < 10 then Char.ofNat (48 + n) else Char.ofNat (87 + n)

/-- A byte as a hex pair. -/
def hexPair (b : Byte) : String := String.ofList [hexDigit (b.toNat / 16), hexDigit (b.toNat % 16)]

/-- A byte string as hex pairs between angle brackets. -/
def hexBytes (bs : List Byte) : String := "<" ++ String.intercalate " " (bs.map hexPair) ++ ">"

/-- The text of a command (R70); a core transaction is no command and has none. -/
def asmText : Instr → Option String
  | .new c alg => some ("NEW " ++ toString c.toNat ++ ", #0x" ++ hexPair alg)
  | .update c data => some ("UPDATE " ++ toString c.toNat ++ ", " ++ hexBytes data)
  | .update1 c byte => some ("UPDATE1 " ++ toString c.toNat ++ ", 0x" ++ hexPair byte)
  | .digest c => some ("DIGEST " ++ toString c.toNat)
  | .duplicate d s => some ("DUPLICATE " ++ toString d.toNat ++ ", " ++ toString s.toNat)
  | .erase c => some ("ERASE " ++ toString c.toNat)
  | .compress _ _ _ => none
  | .finalize _ _ _ _ _ => none

end Sys2Proof.Machine
end

