-- ==== Sys2Proof/Safety.lean ====
section
/-! DEFINITION. The terms statements use: the invariants of 10_state.md R21, what a command leaves
unchanged, the logical state of a Hasher (00_scope.md R12), runs of commands, and the reference digest of
a message (41_digest_padding.md R114). -/

namespace Sys2Proof.Machine

/-! ### Invariants (R21) -/

/-- The invariants of one slot (R21 items 1 to 3, R17): an Erased slot is canonical; an Active slot has a
defined algorithm, `FC = TL mod B < B`, its physical buffer, zero bytes at index `B` and above, and a core
state of `CSW` bits. -/
def Slot.inv (cfg : Config) (sl : Slot) : Bool :=
  match sl.tag with
  | .erased => sl == Slot.canonical cfg.bmax
  | .active =>
    match cfg.row? sl.alg with
    | none => false
    | some row =>
      sl.fc < row.b && sl.fc == sl.tl % row.b && sl.pb.length == cfg.bmax &&
        (sl.pb.drop row.b == zeros (cfg.bmax - row.b)) && sl.cs < 2 ^ row.csw

/-- The invariants that hold at every command boundary and also in the state a command starts from, whose
packet has just been accepted (R21, R24): legal parameters, `NCTX` slots, every slot's invariants, `S` all zero.
The phase is not mentioned, so `step` and `exec` share this premise. -/
def State.consistent (s : State) : Bool :=
  s.cfg.wf && s.ctx.length == s.cfg.nctx && s.ctx.all (fun sl => sl.inv s.cfg) &&
    s.scratch == Scratch.zero s.cfg.bmax

/-- The invariants at a command boundary (R21, R22, R24): `State.consistent`, and `PHASE` IDLE. -/
def State.inv (s : State) : Bool := s.consistent && s.phase == .idle

/-! ### What stays -/

/-- The command ended with exactly this response, at a command boundary. -/
structure Answers (s t : State) (st : Status) (digest : List Byte) : Prop where
  out : t.out = s.out ++ [{ status := st, digest := digest }]
  phase : t.phase = .idle

/-- Everything outside the slots, the scratch context, the response and the phase is unchanged. -/
structure SameRest (s t : State) : Prop where
  fault : t.fault = s.fault
  cfg : t.cfg = s.cfg
  input : t.input = s.input
  rst : t.rst = s.rst
  coreReq : t.coreReq = s.coreReq
  coreReply : t.coreReply = s.coreReply
  freeIx : t.freeIx = s.freeIx

/-- Every slot is unchanged, field by field. -/
structure SameSlots (s t : State) : Prop where
  count : t.ctx.length = s.ctx.length
  slots : ∀ x, t.slot x = s.slot x

/-- Every slot but number `c` is unchanged, field by field. -/
structure SameOtherSlots (c : Nat) (s t : State) : Prop where
  count : t.ctx.length = s.ctx.length
  slots : ∀ x, x ≠ c → t.slot x = s.slot x

/-- The frame of a command that writes slot `c` alone: other slots, `S` and all the rest unchanged. -/
structure WritesOnlySlot (c : Nat) (s t : State) : Prop where
  others : SameOtherSlots c s t
  scratch : t.scratch = s.scratch
  rest : SameRest s t

/-- A refused command (60_exceptions.md R172): one response, without bytes, and nothing else changed. -/
structure Refuses (s t : State) (st : Status) : Prop where
  answers : Answers s t st []
  slots : SameSlots s t
  scratch : t.scratch = s.scratch
  rest : SameRest s t

/-! ### Slots that an instruction may write, and slots it works on -/

/-- Slot `c` can be used: the engine is not faulted, the index names a slot, and the slot is Active
(60_exceptions.md R180, checks 1, 3 and 5). -/
abbrev Usable (s : State) (c : BitVec 4) : Prop :=
  s.fault = false ∧ c.toNat < s.cfg.nctx ∧ (s.slot c.toNat).tag = .active

/-- The next step takes the packet at the front of the input: reset released, nothing on the core port, the
sequencer IDLE. -/
abbrev TakesPacket (s : State) : Prop :=
  s.rst = false ∧ s.coreReq = CoreRequest.idle ∧ s.phase = .idle

/-- The slot a command may write (10_state.md R27). -/
def writtenSlot : Instr → Option Nat
  | .new c _ => some c.toNat
  | .update c _ => some c.toNat
  | .update1 c _ => some c.toNat
  | .digest _ => none
  | .duplicate d _ => some d.toNat
  | .erase c => some c.toNat
  | .compress _ _ _ => none
  | .finalize _ _ _ _ _ => none

/-- The commands that name a single slot, by what they do to it; `duplicate` is DUPLICATE of the slot into
itself (43_lifecycle.md R147). -/
inductive SlotCommand where
  | new (alg : BitVec 8)
  | update (data : List Byte)
  | update1 (byte : Byte)
  | digest
  | duplicate
  | erase
deriving DecidableEq, Repr

/-- The command on slot `c`. -/
def SlotCommand.on (c : BitVec 4) : SlotCommand → Instr
  | .new alg => .new c alg
  | .update data => .update c data
  | .update1 byte => .update1 c byte
  | .digest => .digest c
  | .duplicate => .duplicate c c
  | .erase => .erase c

/-- A piece of a message as it is fed to a slot: the payload of an UPDATE, or the byte of an UPDATE1. -/
inductive Feed where
  | bytes (data : List Byte)
  | byte (b : Byte)
deriving DecidableEq, Repr

/-- The command that feeds slot `c`. -/
def Feed.on (c : BitVec 4) : Feed → Instr
  | .bytes data => .update c data
  | .byte b => .update1 c b

/-- The bytes of a piece. -/
def Feed.data : Feed → List Byte
  | .bytes data => data
  | .byte b => [b]

/-- The message that a sequence of pieces makes (20_memory.md R42). -/
def messageOf (feeds : List Feed) : List Byte := (feeds.map Feed.data).flatten

/-! ### Logical state (00_scope.md R12) -/

/-- Two slots hold the same logical state: `TAG`, `ALG`, `CS`, `PB[0 .. FC-1]`, `FC` and `TL` agree; stale
bytes may differ (10_state.md R29). -/
structure SameLogical (x y : Slot) : Prop where
  tag : x.tag = y.tag
  alg : x.alg = y.alg
  cs : x.cs = y.cs
  pending : x.pending = y.pending
  fc : x.fc = y.fc
  tl : x.tl = y.tl

/-! ### Runs of commands -/

/-- Executes commands one after the other, stopping at the first fault or refusal. -/
def execAll : List Instr → State → Host.Outcome State Fault Refusal
  | [], s => .next s
  | i :: is, s =>
    match exec i s with
    | .next t => execAll is t
    | .fault f => .fault f
    | .refused r => .refused r

/-! ### The reference digest (R114) -/

/-- The fold of `F` over the `B`-byte blocks of `data`. -/
def foldAll (row : AlgRecord) (cs : Nat) (data : List Byte) : Nat :=
  foldBlocks row (data.length / row.b) cs data

/-- `pad` of an MDL policy: `0x80`, the least number of zeros that makes `u` bytes and the padding a multiple
of `B`, the length field of an `n`-byte message (R114). Any `u` that leaves the same remainder as `n` modulo
`B` gives the same padding. -/
def mdlPad (row : AlgRecord) (u n : Nat) : List Byte :=
  0x80#8 :: (zeros ((row.b - (u + 1 + row.pol.lfw) % row.b) % row.b) ++ lengthField row n)

/-- The padding bytes of the MD2 policy: `q` bytes of value `q`, `1 <= q <= B` (R110). -/
def md2Pad (row : AlgRecord) (u : Nat) : List Byte :=
  rep (BitVec.ofNat 8 (row.b - u % row.b)) (row.b - u % row.b)

/-- `pad` of a SPONGE policy: the domain byte, zeros, and 0x80 or-ed into the last byte of the block (R111). -/
def spongePad (row : AlgRecord) (u : Nat) : List Byte :=
  if row.b - u % row.b = 1 then [row.pol.dom ||| 0x80#8]
  else row.pol.dom :: (zeros (row.b - u % row.b - 2) ++ [0x80#8])

/-- The core state after the padded message, from core state `cs`, where `unfolded` is the part of an
`n`-byte message not yet folded into `cs` (R114; for MD2 the checksum block follows, R110). -/
def paddedState (row : AlgRecord) (cs n : Nat) (unfolded : List Byte) : Nat :=
  match row.pol.kind with
  | .mdl => foldAll row cs (unfolded ++ mdlPad row unfolded.length n)
  | .md2 =>
    row.compressBlock (foldAll row cs (unfolded ++ md2Pad row unfolded.length))
      (row.checksum (foldAll row cs (unfolded ++ md2Pad row unfolded.length)))
  | .sponge => foldAll row cs (unfolded ++ spongePad row unfolded.length)

/-- The digest of a message: the padded message folded from `IV`, serialised by `OUT` (R114). -/
def referenceDigest (row : AlgRecord) (msg : List Byte) : List Byte :=
  row.output (paddedState row row.iv msg.length msg)

end Sys2Proof.Machine
end

