-- ==== Sys2Proof/Certificates/Slice0/Obligations.lean ====
section
/-! DEFINITION. The statements for the provers. Each docstring says which rule of spec/ it rests on. -/

open Sys2Proof Sys2Proof.Machine

/-! ### Encoding -/

/-- Decoding the encoding of a well-formed instruction gives it back, for every instruction and every
operand value (30_encoding.md R63, R64, R72). -/
def Obligations.DecodeEncodeRoundTrip : Prop :=
  ∀ i : Instr, i.wf = true → decode (encode i) = .instr i

/-- A packet that decodes is the encoding of what it decodes to: no bit of a legal word is dropped
(R63, R67). -/
def Obligations.DecodedPacketReencodes : Prop :=
  ∀ (w : Word) (payload : List Byte) (i : Instr),
    decodePacket w payload = .instr i → i.wf = true ∧ i.isCommand = true ∧ encode i = .packet w payload

/-- The serialised packet of a well-formed command is framed back as that packet, in either order of the
word's bytes and whatever follows it (R60, R65, R69). -/
def Obligations.EncodedBytesFrameBack : Prop :=
  ∀ (order : Endian) (i : Instr) (rest : List Byte), i.wf = true → i.isCommand = true →
    ∃ w payload, encode i = .packet w payload ∧
      framePacket order ((encode i).streamBytes order ++ rest) = .packet w payload rest

/-- The nine words of the spec's list of legal words decode to the commands it names (95_test_vectors.md V11),
`0x2100FFFF` with any payload of its 65535 bytes; so do an UPDATE of three bytes (30_encoding.md R63, R64) and the
two driven codes of the core port (R72). -/
def Obligations.ListedWordsDecode : Prop :=
  decodePacket 0x10000002 [] = .instr (.new 0 0x02) ∧
  decodePacket 0x1300007F [] = .instr (.new 3 0x7F) ∧
  decodePacket 0x20000000 [] = .instr (.update 0 []) ∧
  (∀ data : List Byte, data.length = 65535 → decodePacket 0x2100FFFF data = .instr (.update 1 data)) ∧
  decodePacket 0x32000061 [] = .instr (.update1 2 0x61) ∧
  decodePacket 0x40000000 [] = .instr (.digest 0) ∧
  decodePacket 0x52100000 [] = .instr (.duplicate 2 1) ∧
  decodePacket 0x63000000 [] = .instr (.erase 3) ∧
  decodePacket 0x1F000002 [] = .instr (.new 15 0x02) ∧
  decodePacket 0x20000003 [0x61, 0x62, 0x63] = .instr (.update 0 [0x61, 0x62, 0x63]) ∧
  decodeTransaction ⟨0b01, 0x7F, 5381, zeros 16, 0, 0⟩ = .instr (.compress 0x7F 5381 (zeros 16)) ∧
  decodeTransaction ⟨0b10, 0x7F, 5381, zeros 16, 3, 19⟩ = .instr (.finalize 0x7F 5381 (zeros 16) 3 19)

/-- Every word either matches exactly one row of the match and mask table, and then its packet decodes, or it
matches none, and then no packet of it does (R67). -/
def Obligations.EveryWordMatchesOneRowOrIsIllegal : Prop :=
  ∀ w : Word,
    ((∃ r ∈ opRows, w &&& r.mask = r.pattern ∧ (∀ r' ∈ opRows, w &&& r'.mask = r'.pattern → r' = r) ∧
        ∀ payload : List Byte, payload.length = payloadLength w →
          ∃ i, decodePacket w payload = .instr i) ∨
      ((∀ r ∈ opRows, w &&& r.mask ≠ r.pattern) ∧
        ∀ payload : List Byte, ∃ why, decodePacket w payload = .reject why))

/-! ### The step -/

/-- When the packet at the front of the input decodes to `i`, the step is `exec` of `i` on the state that has
consumed the packet: its input is what follows the packet, its phase DECODE, every other field as before; it is
consistent when the state before is (30_encoding.md R65, 10_state.md R22; the phase at this level is the model's
choice, log entry 15). -/
def Obligations.StepRunsDecodedPacket : Prop :=
  ∀ (s : State) (w : Word) (payload rest : List Byte) (i : Instr), TakesPacket s →
    framePacket s.cfg.wordOrder s.input = .packet w payload rest →
    decodePacket w payload = .instr i →
    step s = exec i { s with input := rest, phase := .decode } ∧
    (s.consistent = true → ({ s with input := rest, phase := .decode } : State).consistent = true)

/-- A well-formed command whose serialised packet stands at the front of the input is what the step runs, on the
state that has consumed the packet and nothing more; that state is consistent when the one before is, so every
statement about `exec` of a command from a consistent state says what this step does (R60, R65; the phase at this
level is the model's choice, log entry 15). -/
def Obligations.StepRunsEncodedCommand : Prop :=
  ∀ (s : State) (i : Instr) (rest : List Byte), TakesPacket s → i.wf = true → i.isCommand = true →
    s.input = (encode i).streamBytes s.cfg.wordOrder ++ rest →
    step s = exec i { s with input := rest, phase := .decode } ∧
    (s.consistent = true → ({ s with input := rest, phase := .decode } : State).consistent = true)

/-- A core transaction driven on the core port is what the step runs, with the request consumed (R72; that
the port is served before the input is the model's choice, log entry 11). -/
def Obligations.StepServesCoreTransaction : Prop :=
  ∀ (s : State) (i : Instr), s.rst = false → decodeTransaction s.coreReq = .instr i →
    step s = exec i { s with coreReq := CoreRequest.idle }

/-- No step exists until the packet is whole: fewer than four bytes are no command word, and an UPDATE waits
for all its payload bytes (70_reset_and_hazards.md R201; that the wait is this Fault is the model's choice,
log entry 6). Once the packet is whole the engine does not wait. -/
def Obligations.StepWaitsForAWholePacket : Prop :=
  ∀ s : State, TakesPacket s →
    (s.input.length < 4 → step s = .fault .awaitingCommand) ∧
    (∀ (b0 b1 b2 b3 : Byte) (tail : List Byte), s.input = b0 :: b1 :: b2 :: b3 :: tail →
      (tail.length < payloadLength (bytesWord s.cfg.wordOrder b0 b1 b2 b3) →
        step s = .fault .awaitingPayload) ∧
      (payloadLength (bytesWord s.cfg.wordOrder b0 b1 b2 b3) ≤ tail.length →
        ∀ f, step s ≠ .fault f))

/-- The framing is decided by the word alone, whatever the outcome: the payload is as long as `w[15:0]` says
when `w[31:28] = 0x2` and empty otherwise, and the step consumes exactly the packet (30_encoding.md R65). -/
def Obligations.PacketIsConsumedWhole : Prop :=
  ∀ (s t : State) (w : Word) (payload rest : List Byte), TakesPacket s →
    framePacket s.cfg.wordOrder s.input = .packet w payload rest →
    s.input = wordBytes s.cfg.wordOrder w ++ payload ++ rest ∧
    payload.length = (if w >>> 28 = 2#32 then (w &&& 0xFFFF#32).toNat else 0) ∧
    (step s = .next t → t.input = rest)

/-- Every packet produces exactly one response, with `DL` digest bytes when the command is DIGEST and the
status OK, and none in every other case (R66). -/
def Obligations.OneResponsePerPacket : Prop :=
  ∀ (s t : State) (w : Word) (payload rest : List Byte), TakesPacket s →
    framePacket s.cfg.wordOrder s.input = .packet w payload rest → step s = .next t →
    ∃ r : Response, t.out = s.out ++ [r] ∧
      r.digest.length =
        (match decodePacket w payload with
         | .instr (.digest c) =>
           if r.status = .ok then
             (match s.slotRow? c.toNat with
              | some row => row.dl
              | none => 0)
           else 0
         | _ => 0)

/-- An illegal word is refused with E_ILLEGAL, changes no state, and has the framing of its word (R68,
60_exceptions.md R177). -/
def Obligations.IllegalWordIsRefused : Prop :=
  ∀ (s : State) (w : Word) (payload rest : List Byte), TakesPacket s → s.fault = false →
    framePacket s.cfg.wordOrder s.input = .packet w payload rest →
    (∀ r ∈ opRows, w &&& r.mask ≠ r.pattern) →
    ∃ t, step s = .next t ∧ Refuses (s.accept rest) t .eIllegal

/-- A packet begun while a command executes has no step (20_memory.md R53, 93_implementation_defined.md U1),
and neither has the request code that is never driven (30_encoding.md R72). That each is a refusal of this
name is the model's choice (log entries 7, 19). -/
def Obligations.OverlapAndReservedRequestHaveNoStep : Prop :=
  ∀ s : State, s.rst = false →
    (s.coreReq = CoreRequest.idle → s.phase ≠ .idle → step s = .refused .overlappingPacket) ∧
    (s.coreReq.creq = 3#2 → step s = .refused .creqNeverDriven)

/-! ### Reset -/

/-- The reset values: every slot canonical erased, `S` zero, `FAULT` 0, `PHASE` IDLE (10_state.md R28). -/
def Obligations.ResetStateHasTheListedValues : Prop :=
  State.reset.ctx.length = State.reset.cfg.nctx ∧
  (∀ c, (State.reset.slot c).tag = .erased ∧ (State.reset.slot c).alg = 0 ∧
    (State.reset.slot c).pb = zeros State.reset.cfg.bmax ∧ (State.reset.slot c).fc = 0 ∧
    (State.reset.slot c).tl = 0 ∧ (State.reset.slot c).cs = 0) ∧
  State.reset.scratch.alg = 0 ∧ State.reset.scratch.pb = zeros State.reset.cfg.bmax ∧
  State.reset.scratch.fc = 0 ∧ State.reset.scratch.tl = 0 ∧ State.reset.scratch.cs = 0 ∧
  State.reset.fault = false ∧ State.reset.phase = .idle

/-- The reset input makes every slot the canonical erased slot, zeroes `S`, clears `FAULT`, returns `PHASE`
to IDLE, abandons the packet in flight and gives no response (70_reset_and_hazards.md R195, R196). That the
packet is abandoned by emptying the input, that one step stands for the whole pulse, so that `rst` is released
after it, and that the core port is idle with no answer standing is the model's choice (log entries 4, 11, 13). -/
def Obligations.ResetInputErasesEverything : Prop :=
  ∀ s : State, s.rst = true → ∃ t, step s = .next t ∧ t.cfg = s.cfg ∧ t.ctx.length = s.cfg.nctx ∧
    (∀ c, (t.slot c).tag = .erased ∧ (t.slot c).alg = 0 ∧ (t.slot c).pb = zeros s.cfg.bmax ∧
      (t.slot c).fc = 0 ∧ (t.slot c).tl = 0 ∧ (t.slot c).cs = 0) ∧
    t.scratch = Scratch.zero s.cfg.bmax ∧ t.fault = false ∧ t.phase = .idle ∧ t.out = s.out ∧
    t.input = [] ∧ t.rst = false ∧ t.coreReq = CoreRequest.idle ∧ t.coreReply = .none

/-! ### Invariants -/

/-- The invariants hold at reset. -/
def Obligations.ResetMeetsTheInvariants : Prop := State.reset.inv = true

/-- Every step keeps the invariants of R21 (with legal parameters, `S` zero and `PHASE` IDLE at every command
boundary), from every state that meets them. -/
def Obligations.StepKeepsTheInvariants : Prop :=
  ∀ s t : State, s.inv = true → step s = .next t → t.inv = true

/-- Every command answers: from every consistent state, also the one whose packet was just accepted, each of the
six commands, with any operands, comes to a next state with one more response (20_memory.md R48,
60_exceptions.md R173). -/
def Obligations.EveryCommandAnswers : Prop :=
  ∀ (s : State) (i : Instr), s.consistent = true → i.isCommand = true →
    ∃ t r, exec i s = .next t ∧ t.out = s.out ++ [r] ∧ t.phase = .idle

/-- Every whole packet is answered by one step: from every command boundary that meets the invariants, whatever
the word, the step comes to a command boundary that meets them, with the packet gone from the input, one more
response, and the next packet accepted (20_memory.md R48, R52, 30_encoding.md R65, R66, 60_exceptions.md R173). -/
def Obligations.StepAnswersEveryPacket : Prop :=
  ∀ (s : State) (w : Word) (payload rest : List Byte), s.inv = true → TakesPacket s →
    framePacket s.cfg.wordOrder s.input = .packet w payload rest →
    ∃ t r, step s = .next t ∧ t.out = s.out ++ [r] ∧ t.input = rest ∧ TakesPacket t ∧ t.inv = true

/-- No command produces the invariant violation: `compress` is only ever given whole blocks
(40_update.md R86, 41_digest_padding.md R113). -/
def Obligations.NoCommandViolatesTheBlockContract : Prop :=
  ∀ (s t : State) (i : Instr), s.consistent = true → s.fault = false → i.isCommand = true →
    exec i s = .next t →
    t.fault = false ∧ ∃ r, t.out = s.out ++ [r] ∧ r.status ≠ .fInvariant

/-- No step changes the algorithm table or any other parameter (10_state.md R25). -/
def Obligations.ParametersNeverChange : Prop :=
  ∀ s t : State, step s = .next t → t.cfg = s.cfg

/-! ### The fault latch and the status codes -/

/-- While `FAULT = 1` every packet, whatever its word, is consumed whole, changes nothing and is answered
F_INVARIANT (60_exceptions.md R176). -/
def Obligations.FaultLatchRefusesEveryPacket : Prop :=
  ∀ (s : State) (w : Word) (payload rest : List Byte), TakesPacket s → s.fault = true →
    framePacket s.cfg.wordOrder s.input = .packet w payload rest →
    ∃ t, step s = .next t ∧ Refuses (s.accept rest) t .fInvariant

/-- Only reset clears `FAULT` (10_state.md R23). -/
def Obligations.OnlyResetClearsFault : Prop :=
  ∀ s t : State, s.fault = true → s.rst = false → step s = .next t → t.fault = true

/-- A command that responds with a usage error has changed nothing: no field of any slot, not `FAULT`, and
`S` is left zero (60_exceptions.md R172). -/
def Obligations.UsageErrorsChangeNothing : Prop :=
  ∀ (s t : State) (i : Instr) (r : Response), s.consistent = true → i.isCommand = true → exec i s = .next t →
    t.out = s.out ++ [r] → r.status.isUsageError = true →
    Refuses s t r.status ∧ t.scratch = Scratch.zero s.cfg.bmax

/-- The codes E_KEYLEN and E_HMAC_BLOCKLEN are never returned: a step takes away no response, and every response
it adds has another status (R187). -/
def Obligations.ReservedCodesAreNeverReturned : Prop :=
  ∀ s t : State, step s = .next t →
    ∃ added, t.out = s.out ++ added ∧ ∀ r ∈ added, r.status ≠ .eKeyLen ∧ r.status ≠ .eHmacBlockLen

/-! ### Lifecycle -/

/-- NEW on an Erased slot, with a defined tag, makes it an Active Hasher of that algorithm: empty buffer,
counters zero, the core state `IV`; nothing else changes (43_lifecycle.md R141). -/
def Obligations.NewCreatesAFreshHasher : Prop :=
  ∀ (s : State) (c : BitVec 4) (alg : BitVec 8) (row : AlgRecord), s.consistent = true → s.fault = false →
    c.toNat < s.cfg.nctx → s.cfg.row? alg = some row → (s.slot c.toNat).tag = .erased →
    ∃ t, exec (.new c alg) s = .next t ∧ Answers s t .ok [] ∧ WritesOnlySlot c.toNat s t ∧
      t.slot c.toNat =
        { tag := .active, alg := alg, pb := zeros s.cfg.bmax, fc := 0, tl := 0, cs := row.iv }

/-- The refusals of NEW, in the order of its checks (R141, R142, 60_exceptions.md R180). -/
def Obligations.NewRefusalsInOrder : Prop :=
  ∀ (s : State) (c : BitVec 4) (alg : BitVec 8),
    if s.fault = true then ∃ t, exec (.new c alg) s = .next t ∧ Refuses s t .fInvariant
    else if s.cfg.nctx ≤ c.toNat then ∃ t, exec (.new c alg) s = .next t ∧ Refuses s t .eBadCtx
    else if s.cfg.row? alg = none then ∃ t, exec (.new c alg) s = .next t ∧ Refuses s t .eBadAlg
    else (s.slot c.toNat).tag = .active → ∃ t, exec (.new c alg) s = .next t ∧ Refuses s t .eBusy

/-- The refusals of UPDATE, UPDATE1, DIGEST and ERASE, in the order of their checks (40_update.md R81, R84,
41_digest_padding.md R96, 43_lifecycle.md R148, 60_exceptions.md R180). -/
def Obligations.UseRefusalsInOrder : Prop :=
  ∀ (s : State) (c : BitVec 4) (data : List Byte) (byte : Byte),
    ∀ i ∈ [Instr.update c data, Instr.update1 c byte, Instr.digest c, Instr.erase c],
      if s.fault = true then ∃ t, exec i s = .next t ∧ Refuses s t .fInvariant
      else if s.cfg.nctx ≤ c.toNat then ∃ t, exec i s = .next t ∧ Refuses s t .eBadCtx
      else (s.slot c.toNat).tag = .erased → ∃ t, exec i s = .next t ∧ Refuses s t .eErased

/-- DUPLICATE makes the destination an independent copy of the source, every field alike; nothing else
changes (R144). -/
def Obligations.DuplicateCopiesTheHasher : Prop :=
  ∀ (s : State) (d src : BitVec 4), s.consistent = true → s.fault = false → d.toNat < s.cfg.nctx →
    src.toNat < s.cfg.nctx → (s.slot src.toNat).tag = .active → (s.slot d.toNat).tag = .erased →
    ∃ t, exec (.duplicate d src) s = .next t ∧ Answers s t .ok [] ∧ WritesOnlySlot d.toNat s t ∧
      t.slot d.toNat = s.slot src.toNat

/-- The refusals of DUPLICATE, in the order of its checks: the source's before the destination's, so that
`DUPLICATE c, c` is E_BUSY on an Active slot and E_ERASED on an Erased one (R144, R147, R180). -/
def Obligations.DuplicateRefusalsInOrder : Prop :=
  ∀ (s : State) (d src : BitVec 4),
    if s.fault = true then ∃ t, exec (.duplicate d src) s = .next t ∧ Refuses s t .fInvariant
    else if s.cfg.nctx ≤ d.toNat ∨ s.cfg.nctx ≤ src.toNat then
      ∃ t, exec (.duplicate d src) s = .next t ∧ Refuses s t .eBadCtx
    else if (s.slot src.toNat).tag = .erased then
      ∃ t, exec (.duplicate d src) s = .next t ∧ Refuses s t .eErased
    else (s.slot d.toNat).tag = .active →
      ∃ t, exec (.duplicate d src) s = .next t ∧ Refuses s t .eBusy

/-- ERASE zeroes every byte of the physical buffer, the core state, `FC`, `TL` and `ALG`, and marks the slot
Erased; nothing else changes (R148). -/
def Obligations.EraseZeroesTheSlot : Prop :=
  ∀ (s : State) (c : BitVec 4), s.consistent = true → Usable s c →
    ∃ t, exec (.erase c) s = .next t ∧ Answers s t .ok [] ∧ WritesOnlySlot c.toNat s t ∧
      t.slot c.toNat =
        { tag := .erased, alg := 0, pb := zeros s.cfg.bmax, fc := 0, tl := 0, cs := 0 }

/-- After ERASE every use of the slot responds E_ERASED and changes nothing, every time, a second ERASE
included, until an accepted NEW or DUPLICATE into the slot: commands that neither name the slot nor succeed
in making a Hasher there leave it so (R149). -/
def Obligations.EraseThenUseFails : Prop :=
  ∀ (s : State) (c d : BitVec 4) (data : List Byte) (byte : Byte), s.fault = false →
    c.toNat < s.cfg.nctx → d.toNat < s.cfg.nctx → (s.slot c.toNat).tag = .erased →
    (∀ i ∈ [Instr.update c data, Instr.update1 c byte, Instr.digest c, Instr.erase c, Instr.duplicate d c],
      ∃ t, exec i s = .next t ∧ Refuses s t .eErased) ∧
    (∀ (i : Instr) (t : State), exec i s = .next t → (t.slot c.toNat).tag = .active →
      (∃ alg, i = .new c alg) ∨ ∃ src, i = .duplicate c src)

/-- Only an accepted ERASE of the slot takes an Active slot to Erased; only an accepted NEW or DUPLICATE into
the slot takes an Erased one to Active (10_state.md R15, 43_lifecycle.md R143). -/
def Obligations.LifecycleTransitions : Prop :=
  ∀ (s t : State) (i : Instr) (x : Nat), exec i s = .next t →
    ((s.slot x).tag = .active → (t.slot x).tag = .erased → ∃ c, i = .erase c ∧ c.toNat = x) ∧
    ((s.slot x).tag = .erased → (t.slot x).tag = .active →
      (∃ c alg, i = .new c alg ∧ c.toNat = x) ∨ ∃ d src, i = .duplicate d src ∧ d.toNat = x)

/-- A slot's algorithm cannot change while the slot is Active: no command writes `ALG` of an Active slot but
ERASE, which ends it (R133, 10_state.md R16). -/
def Obligations.AlgorithmFixedWhileActive : Prop :=
  ∀ (s t : State) (i : Instr) (x : Nat), exec i s = .next t → (s.slot x).tag = .active →
    (t.slot x).tag = .active → (t.slot x).alg = (s.slot x).alg

/-- `TL` of a slot that stays Active never decreases (40_update.md R85). -/
def Obligations.TotalLengthNeverDecreases : Prop :=
  ∀ (s t : State) (i : Instr) (x : Nat), exec i s = .next t → (s.slot x).tag = .active →
    (t.slot x).tag = .active → (s.slot x).tl ≤ (t.slot x).tl

/-- Slot isolation: an instruction changes no field of any slot but the one it may write (10_state.md R21
item 4, R27), whatever its outcome. -/
def Obligations.SlotIsolation : Prop :=
  ∀ (s t : State) (i : Instr), exec i s = .next t →
    ∀ x, writtenSlot i ≠ some x → t.slot x = s.slot x

/-- Duplicate independence: no sequence of commands naming only slot `d` changes any field of another slot
(43_lifecycle.md R145). -/
def Obligations.CommandsOnOneSlotLeaveTheOthers : Prop :=
  ∀ (s t : State) (d : BitVec 4) (cmds : List SlotCommand),
    execAll (cmds.map (SlotCommand.on d)) s = .next t → ∀ x, x ≠ d.toNat → t.slot x = s.slot x

/-- Same logical state: for any sequence of commands naming a single slot, DUPLICATE of the slot into itself
included, running it on one of two slots with equal fields and running it on the other give the same responses and
the same resulting fields (R146). -/
def Obligations.EqualSlotsBehaveAlike : Prop :=
  ∀ (s : State) (x y : BitVec 4) (cmds : List SlotCommand), s.consistent = true → x.toNat < s.cfg.nctx →
    y.toNat < s.cfg.nctx → s.slot x.toNat = s.slot y.toNat →
    ∃ t u, execAll (cmds.map (SlotCommand.on x)) s = .next t ∧
      execAll (cmds.map (SlotCommand.on y)) s = .next u ∧ t.out = u.out ∧ t.slot x.toNat = u.slot y.toNat

/-! ### Accumulation -/

/-- The closed form of `absorb`: with `f = FC` and `n` payload bytes, UPDATE compresses the `(f + n) div B`
consecutive blocks of the pending bytes followed by the payload, keeps the last `(f + n) mod B` bytes pending,
adds `n` to `TL`, responds OK, and changes nothing else (40_update.md R81, R82; R87, which the spec marks as
its own inference from R82). -/
def Obligations.UpdateClosedForm : Prop :=
  ∀ (s : State) (c : BitVec 4) (data : List Byte) (row : AlgRecord), s.consistent = true → Usable s c →
    s.slotRow? c.toNat = some row →
    ∃ t, exec (.update c data) s = .next t ∧ Answers s t .ok [] ∧ WritesOnlySlot c.toNat s t ∧
      (t.slot c.toNat).tag = .active ∧ (t.slot c.toNat).alg = (s.slot c.toNat).alg ∧
      (t.slot c.toNat).fc = ((s.slot c.toNat).fc + data.length) % row.b ∧
      (t.slot c.toNat).tl = (s.slot c.toNat).tl + data.length ∧
      (t.slot c.toNat).cs =
        foldBlocks row (((s.slot c.toNat).fc + data.length) / row.b) (s.slot c.toNat).cs
          ((s.slot c.toNat).pending ++ data) ∧
      (t.slot c.toNat).pending =
        ((s.slot c.toNat).pending ++ data).drop
          (((s.slot c.toNat).fc + data.length) / row.b * row.b) ∧
      (t.slot c.toNat).pb.length = (s.slot c.toNat).pb.length ∧
      (t.slot c.toNat).pb.drop row.b = (s.slot c.toNat).pb.drop row.b

/-- What UPDATE1 reduces to: the byte goes to `PB[FC]`, `FC` and `TL` grow by one, and a block that becomes
full is compressed at once; with one-byte blocks the byte is compressed without passing through `PB` (R84). -/
def Obligations.Update1AbsorbsOneByte : Prop :=
  ∀ (s : State) (c : BitVec 4) (byte : Byte) (row : AlgRecord), s.consistent = true → Usable s c →
    s.slotRow? c.toNat = some row →
    ∃ t, exec (.update1 c byte) s = .next t ∧ Answers s t .ok [] ∧ WritesOnlySlot c.toNat s t ∧
      t.slot c.toNat =
        if (s.slot c.toNat).fc + 1 = row.b then
          { s.slot c.toNat with
            pb := if row.b = 1 then (s.slot c.toNat).pb
                  else (s.slot c.toNat).pb.set (s.slot c.toNat).fc byte
            fc := 0
            tl := (s.slot c.toNat).tl + 1
            cs := row.compressBlock (s.slot c.toNat).cs ((s.slot c.toNat).pending ++ [byte]) }
        else
          { s.slot c.toNat with
            pb := (s.slot c.toNat).pb.set (s.slot c.toNat).fc byte
            fc := (s.slot c.toNat).fc + 1
            tl := (s.slot c.toNat).tl + 1 }

/-- The corner cases of UPDATE: no bytes, a part of the free room, exactly the free room, whole blocks on an
empty buffer, less than a block on an empty buffer (R83). -/
def Obligations.UpdateCornerCases : Prop :=
  ∀ (s t : State) (c : BitVec 4) (data : List Byte) (row : AlgRecord), s.consistent = true → Usable s c →
    s.slotRow? c.toNat = some row → exec (.update c data) s = .next t →
    (data.length = 0 → SameSlots s t) ∧
    (0 < (s.slot c.toNat).fc → (s.slot c.toNat).fc + data.length < row.b →
      (t.slot c.toNat).cs = (s.slot c.toNat).cs ∧
      (t.slot c.toNat).fc = (s.slot c.toNat).fc + data.length ∧
      (t.slot c.toNat).pb = (s.slot c.toNat).pb.take (s.slot c.toNat).fc ++ data ++
        (s.slot c.toNat).pb.drop ((s.slot c.toNat).fc + data.length)) ∧
    (0 < (s.slot c.toNat).fc → (s.slot c.toNat).fc + data.length = row.b →
      (t.slot c.toNat).cs =
        row.compressBlock (s.slot c.toNat).cs ((s.slot c.toNat).pending ++ data) ∧
      (t.slot c.toNat).fc = 0) ∧
    ((s.slot c.toNat).fc = 0 → 0 < data.length → data.length % row.b = 0 →
      (t.slot c.toNat).cs = foldAll row (s.slot c.toNat).cs data ∧ (t.slot c.toNat).fc = 0 ∧
      (t.slot c.toNat).pb = (s.slot c.toNat).pb) ∧
    ((s.slot c.toNat).fc = 0 → data.length < row.b →
      (t.slot c.toNat).cs = (s.slot c.toNat).cs ∧ (t.slot c.toNat).fc = data.length ∧
      (t.slot c.toNat).pb = data ++ (s.slot c.toNat).pb.drop data.length)

/-- Chunking invariance: for any way of splitting a message into consecutive updates, empty ones and single
bytes included, the response to DIGEST is that after one update with the whole message (R88). That the logical states
agree too is the spec's own inference in R88, from R87. -/
def Obligations.ChunkingInvariance : Prop :=
  ∀ (s : State) (c : BitVec 4) (feeds : List Feed), s.consistent = true → Usable s c →
    ∃ s1 s2 t1 t2 r, execAll (feeds.map (Feed.on c)) s = .next s1 ∧
      exec (.update c (messageOf feeds)) s = .next s2 ∧
      SameLogical (s1.slot c.toNat) (s2.slot c.toNat) ∧
      exec (.digest c) s1 = .next t1 ∧ t1.out = s1.out ++ [r] ∧
      exec (.digest c) s2 = .next t2 ∧ t2.out = s2.out ++ [r]

/-- UPDATEL expands to UPDATE commands of legal length, one for each 65535 bytes in order and one for what
remains, omitted when that is nothing, and leaves the logical state of one update with all the data (30_encoding.md
R71). R71 gives this for more than 65535 bytes; that no data gives no command and 1 to 65535 bytes give one is the
model's choice (log entry 21). -/
def Obligations.UpdateLIsOneUnboundedUpdate : Prop :=
  ∀ (s : State) (c : BitVec 4) (data : List Byte), s.consistent = true → Usable s c →
    (Pseudo.updatel c data).expand.length =
      data.length / 65535 + (if data.length % 65535 = 0 then 0 else 1) ∧
    (∀ k, k < (Pseudo.updatel c data).expand.length →
      (Pseudo.updatel c data).expand[k]? = some (.update c ((data.drop (k * 65535)).take 65535))) ∧
    (∀ i ∈ (Pseudo.updatel c data).expand, i.wf = true) ∧
    ∃ s1 s2, execAll (Pseudo.updatel c data).expand s = .next s1 ∧
      exec (.update c data) s = .next s2 ∧ SameLogical (s1.slot c.toNat) (s2.slot c.toNat)

/-! ### DIGEST and padding -/

/-- DIGEST of a message within the declared maximum answers OK and the digest of the padded message, whatever
the policy; no slot changes, `S` is zero again, nothing else changes (41_digest_padding.md R96, R101 to R112,
R114). -/
def Obligations.DigestAnswersThePaddedHash : Prop :=
  ∀ (s : State) (c : BitVec 4) (row : AlgRecord), s.consistent = true → Usable s c →
    s.slotRow? c.toNat = some row → tooLong row (s.slot c.toNat).tl = false →
    ∃ t, exec (.digest c) s = .next t ∧
      Answers s t .ok (row.output (paddedState row (s.slot c.toNat).cs (s.slot c.toNat).tl
        (s.slot c.toNat).pending)) ∧
      SameSlots s t ∧ t.scratch = Scratch.zero s.cfg.bmax ∧ SameRest s t

/-- The digest as a function of the message: NEW, any sequence of updates, then DIGEST answers the reference
digest of the concatenated message (R114, 20_memory.md R42). -/
def Obligations.DigestIsTheHashOfTheMessage : Prop :=
  ∀ (s : State) (c : BitVec 4) (alg : BitVec 8) (row : AlgRecord) (feeds : List Feed), s.consistent = true →
    s.fault = false → c.toNat < s.cfg.nctx → s.cfg.row? alg = some row →
    (s.slot c.toNat).tag = .erased → tooLong row (messageOf feeds).length = false →
    ∃ t, execAll (.new c alg :: (feeds.map (Feed.on c) ++ [.digest c])) s = .next t ∧
      t.out = s.out ++ List.replicate (feeds.length + 1) { status := .ok, digest := [] } ++
        [{ status := .ok, digest := referenceDigest row (messageOf feeds) }]

/-- HASH on an Erased slot: the one-shot hash. Its last responses are the reference digest of the data and the OK
of ERASE, each response before them is OK, and it leaves the slot Erased, every field zero, and all else but the
responses as it was (30_encoding.md R71, R114). How many UPDATE commands it makes of 65535 bytes and fewer is the
model's choice (log entry 21); the statement does not say. -/
def Obligations.HashIsOneShotAndLeavesTheSlotErased : Prop :=
  ∀ (s : State) (c : BitVec 4) (alg : BitVec 8) (row : AlgRecord) (data : List Byte), s.consistent = true →
    s.fault = false → c.toNat < s.cfg.nctx → s.cfg.row? alg = some row →
    (s.slot c.toNat).tag = .erased → tooLong row data.length = false →
    ∃ t oks, execAll (Pseudo.hash c alg data).expand s = .next t ∧
      t.out = s.out ++ oks ++
        [{ status := .ok, digest := referenceDigest row data }, { status := .ok, digest := [] }] ∧
      (∀ r ∈ oks, r = { status := .ok, digest := [] }) ∧ t.slot c.toNat = Slot.canonical s.cfg.bmax ∧
      SameSlots s t ∧ t.scratch = s.scratch ∧ SameRest s t

/-- The non-destructive digest law: whatever the status, every field of every slot after DIGEST is what it was
before (R98); of the rest only the response, the phase, `S`, the model's count of free values and, together with
the response F_INVARIANT, `FAULT` can change. -/
def Obligations.DigestChangesNoSlot : Prop :=
  ∀ (s t : State) (c : BitVec 4), exec (.digest c) s = .next t →
    SameSlots s t ∧ t.cfg = s.cfg ∧ t.input = s.input ∧ t.coreReq = s.coreReq ∧ t.coreReply = s.coreReply ∧
    t.rst = s.rst ∧ (t.fault = s.fault ∨ t.out = s.out ++ [{ status := .fInvariant, digest := [] }])

/-- DIGEST and then any command behaves as if DIGEST had not been called: the same response, the same slots
after it; in particular a second DIGEST gives the same response (R98). -/
def Obligations.DigestIsInvisibleToLaterCommands : Prop :=
  ∀ (s t u : State) (c : BitVec 4) (i : Instr), s.consistent = true → i.isCommand = true →
    exec (.digest c) s = .next t → exec i s = .next u →
    ∃ v r, exec i t = .next v ∧ u.out = s.out ++ [r] ∧ v.out = t.out ++ [r] ∧ SameSlots u v

/-- No response depends on the stale bytes: two slots of equal logical state, in any two states of the same
parameters, give the same response to DIGEST (10_state.md R29, 00_scope.md R12). -/
def Obligations.DigestIgnoresStaleBytes : Prop :=
  ∀ (s u : State) (c d : BitVec 4), s.consistent = true → u.consistent = true → s.cfg = u.cfg →
    Usable s c → Usable u d →
    SameLogical (s.slot c.toNat) (u.slot d.toNat) →
    ∃ s' u' r, exec (.digest c) s = .next s' ∧ exec (.digest d) u = .next u' ∧
      s'.out = s.out ++ [r] ∧ u'.out = u.out ++ [r]

/-- A message longer than the declared maximum: DIGEST answers E_MSG_TOO_LONG and changes nothing; UPDATE
still succeeds, and the DIGEST after it fails the same way (41_digest_padding.md R103,
70_reset_and_hazards.md R206). -/
def Obligations.TooLongStaysTooLong : Prop :=
  ∀ (s : State) (c : BitVec 4) (data : List Byte) (row : AlgRecord), s.consistent = true → Usable s c →
    s.slotRow? c.toNat = some row → tooLong row (s.slot c.toNat).tl = true →
    (∃ t, exec (.digest c) s = .next t ∧ Refuses s t .eMsgTooLong) ∧
    ∃ u v, exec (.update c data) s = .next u ∧ Answers s u .ok [] ∧
      exec (.digest c) u = .next v ∧ Refuses u v .eMsgTooLong

/-- The MDL padding is the least one, and it ends on a block boundary: one block exactly when the marker and
the length field fit behind the pending bytes, two otherwise (R109, R113, R114). -/
def Obligations.MdlPaddingTakesOneOrTwoBlocks : Prop :=
  ∀ (row : AlgRecord) (f n : Nat), row.wf = true → row.pol.kind = .mdl → f < row.b →
    f + (mdlPad row f n).length = (if f + 1 + row.pol.lfw ≤ row.b then row.b else 2 * row.b) ∧
    ∀ z, (f + 1 + z + row.pol.lfw) % row.b = 0 →
      (mdlPad row f n).length ≤ 1 + z + row.pol.lfw

/-- The length field holds the message length in bits, in the policy's byte order, in `LFW` bytes, for every
message within the declared maximum (R104, 20_memory.md R43). -/
def Obligations.LengthFieldHoldsTheBitLength : Prop :=
  ∀ (row : AlgRecord) (tl : Nat), row.wf = true → row.pol.kind = .mdl → tooLong row tl = false →
    (lengthField row tl).length = row.pol.lfw ∧
    (match row.pol.lenEndian with
     | .be => (lengthField row tl).foldl (fun a b => a * 256 + b.toNat) 0
     | .le => (lengthField row tl).foldr (fun b a => a * 256 + b.toNat) 0) = 8 * tl

/-- The dispatch as a finite-state machine: from the snapshot, at most seven transitions bring the machine of
R102 back to IDLE with `S` zero, and the response it has sent is the response of DIGEST. -/
def Obligations.PaddingMachineRefinesDigest : Prop :=
  ∀ (s : State) (c : BitVec 4) (row : AlgRecord), s.consistent = true → Usable s c →
    s.slotRow? c.toNat = some row →
    ∃ r t, exec (.digest c) s = .next t ∧ t.out = s.out ++ [r] ∧
      (digestIterate row s.cfg.bmax 7 (digestStart (s.slot c.toNat))).phase = .idle ∧
      (digestIterate row s.cfg.bmax 7 (digestStart (s.slot c.toNat))).scratch =
        Scratch.zero s.cfg.bmax ∧
      (digestIterate row s.cfg.bmax 7 (digestStart (s.slot c.toNat))).sent = some r

/-! ### Core transactions -/

/-- COMPRESS of whole blocks answers the fold of `F` over them, in order, and changes nothing else
(42_core_interface.md R121). -/
def Obligations.CompressFoldsWholeBlocks : Prop :=
  ∀ (s : State) (a : BitVec 8) (cs : Nat) (blocks : List (List Byte)) (row : AlgRecord),
    s.cfg.row? a = some row → 0 < row.b → (∀ b ∈ blocks, b.length = row.b) →
    exec (.compress a cs blocks.flatten) s =
      .next { s with coreReply := .state (blocks.foldl row.compressBlock cs) }

/-- COMPRESS of a byte count that is no multiple of `B` latches `FAULT` and answers the invariant violation;
nothing else changes (R121, R123). -/
def Obligations.CompressLatchesFaultOnPartialBlocks : Prop :=
  ∀ (s : State) (a : BitVec 8) (cs : Nat) (data : List Byte) (row : AlgRecord), s.cfg.row? a = some row →
    data.length % row.b ≠ 0 →
    exec (.compress a cs data) s = .next { s with fault := true, coreReply := .invariant }

/-- The consequences of the fold: compressing a concatenation of whole blocks is compressing one part after
the other, and the empty call is the identity (R121). -/
def Obligations.CompressOfAConcatenation : Prop :=
  ∀ (row : AlgRecord) (cs : Nat) (x y : List Byte), 0 < row.b → x.length % row.b = 0 →
    y.length % row.b = 0 →
    compress row cs [] = some cs ∧
    ∃ cs', compress row cs x = some cs' ∧ compress row cs (x ++ y) = compress row cs' y

/-- FINALIZE answers the digest of the padded bytes, or E_MSG_TOO_LONG, and changes nothing else (R124,
41_digest_padding.md R101). -/
def Obligations.FinalizeAnswersTheDigest : Prop :=
  ∀ (s : State) (a : BitVec 8) (cs fc tl : Nat) (pb : List Byte) (row : AlgRecord),
    s.cfg.row? a = some row → row.wf = true → pb.length = row.b → fc < row.b →
    exec (.finalize a cs pb fc tl) s =
      .next { s with
        coreReply :=
          if tooLong row tl then .tooLong
          else .digest (row.output (paddedState row cs tl (pb.take fc))) }

/-- Where a form stops: a tag the table does not define, on the core port or in an Active slot, and a
FINALIZE whose partial block or fill count is outside its contract. The spec gives no effect there; the names
are the model's (log entry 12). -/
def Obligations.OperandsOutsideTheTableStop : Prop :=
  (∀ (s : State) (a : BitVec 8) (cs fc tl : Nat) (bytes : List Byte), s.cfg.row? a = none →
    exec (.compress a cs bytes) s = .refused .algUndefined ∧
    exec (.finalize a cs bytes fc tl) s = .refused .algUndefined) ∧
  (∀ (s : State) (a : BitVec 8) (cs fc tl : Nat) (pb : List Byte) (row : AlgRecord),
    s.cfg.row? a = some row → (pb.length ≠ row.b ∨ row.b ≤ fc) →
    exec (.finalize a cs pb fc tl) s = .refused .finalizeContract) ∧
  (∀ (s : State) (c : BitVec 4) (data : List Byte) (byte : Byte), Usable s c →
    s.slotRow? c.toNat = none →
    exec (.update c data) s = .refused .algUndefined ∧
    exec (.update1 c byte) s = .refused .algUndefined ∧
    exec (.digest c) s = .refused .algUndefined)

/-- The TOY fixture gives the listed values: one block of zeros (95_test_vectors.md V10), the digests of the
empty message (V14) and of seven, eight and fifteen bytes (V15) (42_core_interface.md R132). -/
def Obligations.ToyFixtureGivesTheListedValues : Prop :=
  toyRow.compressBlock 5381 (zeros 16) = 0xBDCB7F05 ∧
  referenceDigest toyRow [] = [0xd8, 0x5e, 0x6f, 0x85] ∧
  referenceDigest toyRow [1, 2, 3, 4, 5, 6, 7] = [0x6f, 0x3b, 0xde, 0x59] ∧
  referenceDigest toyRow [1, 2, 3, 4, 5, 6, 7, 8] = [0x2e, 0xa2, 0x88, 0x69] ∧
  referenceDigest toyRow [1, 2, 3, 4, 5, 6, 7, 8, 9, 10, 11, 12, 13, 14, 15] = [0xf6, 0x63, 0x5f, 0x75]
end

