-- ==== Sys2Proof/Laws/Table.lean ====
section
/-! SUPPORT. The small lemmas of the algorithm table: what a look-up finds, and the sizes of what a core
supplies. -/

namespace Sys2Proof

/-! ### Byte strings -/

@[simp] theorem length_zeros (n : Nat) : (zeros n).length = n := by simp [zeros]

@[simp] theorem length_rep (v : Byte) (n : Nat) : (rep v n).length = n := by simp [rep]

@[simp] theorem zeros_zero : zeros 0 = [] := rfl

theorem zeros_append (m n : Nat) : zeros m ++ zeros n = zeros (m + n) := by
  simp [zeros, List.replicate_append_replicate]

@[simp] theorem take_zeros (k n : Nat) : (zeros n).take k = zeros (min k n) := by
  simp [zeros, List.take_replicate]

@[simp] theorem drop_zeros (k n : Nat) : (zeros n).drop k = zeros (n - k) := by
  simp [zeros, List.drop_replicate]

@[simp] theorem length_bytesLE (v w : Nat) : (bytesLE v w).length = w := by
  induction w generalizing v with
  | zero => rfl
  | succ w ih => simp [bytesLE, ih]

@[simp] theorem length_bytesBE (v w : Nat) : (bytesBE v w).length = w := by simp [bytesBE]

/-! ### Look-ups -/

/-- A look-up finds a record of the table under its tag, never under tag 0. -/
theorem Config.row?_some {cfg : Config} {a : BitVec 8} {row : AlgRecord} (h : cfg.row? a = some row) :
    row ∈ cfg.atab ∧ row.tag = a ∧ a ≠ 0 := by
  unfold Config.row? at h
  split at h
  · cases h
  · exact ⟨List.mem_of_find?_eq_some h, by simpa using List.find?_some h, ‹_›⟩

/-- No block is longer than the physical buffer. -/
theorem Config.b_le_bmax {cfg : Config} {row : AlgRecord} (h : row ∈ cfg.atab) : row.b ≤ cfg.bmax := by
  unfold Config.bmax
  generalize cfg.atab = l at h
  induction l with
  | nil => cases h
  | cons r rs ih =>
    rcases List.mem_cons.mp h with rfl | h
    · exact Nat.le_max_left ..
    · exact (ih h).trans (Nat.le_max_right ..)

/-- In a legal configuration a look-up finds a legal record whose block fits the buffer. -/
theorem Config.row?_wf {cfg : Config} {a : BitVec 8} {row : AlgRecord} (hc : cfg.wf = true)
    (h : cfg.row? a = some row) : row.wf = true ∧ row.b ≤ cfg.bmax := by
  have hm := (Config.row?_some h).1
  simp only [Config.wf, Bool.and_eq_true, List.all_eq_true] at hc
  exact ⟨hc.2 row hm, Config.b_le_bmax hm⟩

theorem AlgRecord.b_pos {row : AlgRecord} (h : row.wf = true) : 0 < row.b := by
  simp only [AlgRecord.wf, Bool.and_eq_true, decide_eq_true_eq] at h
  exact h.1.1.1

theorem AlgRecord.dl_pos {row : AlgRecord} (h : row.wf = true) : 0 < row.dl := by
  simp only [AlgRecord.wf, Bool.and_eq_true, decide_eq_true_eq] at h
  exact h.1.1.2

theorem AlgRecord.pol_wf {row : AlgRecord} (h : row.wf = true) : row.pol.wf row.b = true := by
  simp only [AlgRecord.wf, Bool.and_eq_true, decide_eq_true_eq] at h
  exact h.1.2

/-- A legal MDL policy's length field fits the block and holds every permitted length. -/
theorem Policy.wf_mdl {p : Policy} {b : Nat} (h : p.wf b = true) (hk : p.kind = .mdl) :
    p.lfw ≤ b ∧ ∃ m, p.maxBits = some m ∧ m ≤ fieldCapacity p.lfw := by
  simp only [Policy.wf, hk, Bool.and_eq_true, decide_eq_true_eq] at h
  refine ⟨h.1, ?_⟩
  cases hm : p.maxBits with
  | none => simp [hm] at h
  | some m => exact ⟨m, rfl, by simpa [hm] using h.2⟩

/-! ### What a core supplies -/

@[simp] theorem AlgRecord.length_output (row : AlgRecord) (cs : Nat) : (row.output cs).length = row.dl := by
  unfold AlgRecord.output
  split <;> simp

@[simp] theorem AlgRecord.length_checksum (row : AlgRecord) (cs : Nat) : (row.checksum cs).length = row.b := by
  unfold AlgRecord.checksum
  split <;> simp

theorem AlgRecord.iv_lt (row : AlgRecord) : row.iv < 2 ^ row.csw := Nat.mod_lt _ (Nat.two_pow_pos _)

theorem AlgRecord.compressBlock_lt (row : AlgRecord) (cs : Nat) (block : List Byte) :
    row.compressBlock cs block < 2 ^ row.csw := Nat.mod_lt _ (Nat.two_pow_pos _)

end Sys2Proof
end

