-- ==== Sys2Proof/Laws/Ops.lean ====
section
/-! SUPPORT. What the shared operations can do, said once: checks, buffer writes, the `compress` contract. -/

namespace Sys2Proof.Machine

/-! ### Checks -/

@[simp] theorem firstFailing_nil : firstFailing [] = none := rfl

/-- A check that fires hides the later ones; one that does not is passed. -/
theorem firstFailing_cons (b : Bool) (st : Status) (rest : List (Bool × Status)) :
    firstFailing ((b, st) :: rest) = if b = true then some st else firstFailing rest := rfl

/-- No check fires exactly when each one does not. -/
theorem firstFailing_cons_eq_none (b : Bool) (st : Status) (rest : List (Bool × Status)) :
    firstFailing ((b, st) :: rest) = none ↔ b = false ∧ firstFailing rest = none := by
  cases b <;> simp [firstFailing_cons]

/-- NEW passes its checks exactly when the engine is not faulted, the index names a slot, the tag is defined
and the slot is not Active. -/
theorem State.refusesNew_eq_none {s : State} {c : BitVec 4} {alg : BitVec 8} :
    s.refusesNew c alg = none ↔
      s.fault = false ∧ c.toNat < s.cfg.nctx ∧ s.cfg.defines alg = true ∧ (s.slot c.toNat).tag ≠ .active := by
  simp [State.refusesNew, firstFailing_cons_eq_none, State.checkFault, State.checkCtx, State.checkAlg, State.checkBusy,
    State.isActive]

/-- UPDATE, UPDATE1, DIGEST and ERASE pass their checks exactly when the engine is not faulted, the index names
a slot, and the slot is not Erased. -/
theorem State.refusesUse_eq_none {s : State} {c : BitVec 4} :
    s.refusesUse c = none ↔
      s.fault = false ∧ c.toNat < s.cfg.nctx ∧ (s.slot c.toNat).tag ≠ .erased := by
  simp [State.refusesUse, firstFailing_cons_eq_none, State.checkFault, State.checkCtx, State.checkErased, State.isErased]

/-- DUPLICATE passes its checks exactly when the engine is not faulted, both indices name slots, the source is
not Erased and the destination not Active. -/
theorem State.refusesDuplicate_eq_none {s : State} {d src : BitVec 4} :
    s.refusesDuplicate d src = none ↔
      s.fault = false ∧ d.toNat < s.cfg.nctx ∧ src.toNat < s.cfg.nctx ∧ (s.slot src.toNat).tag ≠ .erased ∧
        (s.slot d.toNat).tag ≠ .active := by
  simp [State.refusesDuplicate, firstFailing_cons_eq_none, State.checkFault, State.checkCtx, State.checkErased,
    State.checkBusy, State.isErased, State.isActive]

/-- A tag is one of two. -/
theorem Tag.ne_erased {t : Tag} : t ≠ .erased ↔ t = .active := by cases t <;> simp

theorem Tag.ne_active {t : Tag} : t ≠ .active ↔ t = .erased := by cases t <;> simp

/-! ### Buffer writes -/

@[simp] theorem writeAt_nil (pb : List Byte) (i : Nat) : writeAt pb i [] = pb := rfl

@[simp] theorem length_writeAt (pb : List Byte) (i : Nat) (bs : List Byte) :
    (writeAt pb i bs).length = pb.length := by
  induction bs generalizing pb i with
  | nil => rfl
  | cons b bs ih => simp [writeAt, ih]

/-- A write inside the storage replaces exactly the bytes it covers. -/
theorem writeAt_eq {pb : List Byte} {i : Nat} {bs : List Byte} (h : i + bs.length ≤ pb.length) :
    writeAt pb i bs = pb.take i ++ bs ++ pb.drop (i + bs.length) := by
  induction bs generalizing pb i with
  | nil => simp [writeAt]
  | cons b bs ih =>
    simp only [List.length_cons] at h ⊢
    have hi : i < pb.length := by omega
    have ht : (pb.set i b).take (i + 1) = pb.take i ++ [b] := by
      rw [List.take_add_one]
      simp [hi, List.take_set_of_le]
    rw [writeAt, ih (by simp; omega), ht, List.drop_set_of_lt (by omega)]
    simp [Nat.add_assoc, Nat.add_comm 1]

/-! ### The `compress` contract -/

@[simp] theorem foldBlocks_zero (row : AlgRecord) (cs : Nat) (data : List Byte) :
    foldBlocks row 0 cs data = cs := rfl

theorem foldBlocks_succ (row : AlgRecord) (m cs : Nat) (data : List Byte) :
    foldBlocks row (m + 1) cs data =
      foldBlocks row m (row.compressBlock cs (data.take row.b)) (data.drop row.b) := rfl

/-- Folding the blocks of one string and then of the next is folding the blocks of both. -/
theorem foldBlocks_append (row : AlgRecord) (m k cs : Nat) {x : List Byte} (y : List Byte)
    (h : x.length = m * row.b) :
    foldBlocks row (m + k) cs (x ++ y) = foldBlocks row k (foldBlocks row m cs x) y := by
  induction m generalizing cs x with
  | zero => simp at h; simp [h]
  | succ m ih =>
    have hl : row.b ≤ x.length := by rw [h, Nat.succ_mul]; omega
    rw [show m + 1 + k = m + k + 1 by omega, foldBlocks_succ, foldBlocks_succ,
      List.take_append_of_le_length hl, List.drop_append_of_le_length hl,
      ih _ (by rw [List.length_drop, h, Nat.succ_mul]; omega)]

/-- The fold reads no byte outside its blocks. -/
theorem foldBlocks_take (row : AlgRecord) (m cs : Nat) {x : List Byte} (h : m * row.b ≤ x.length) :
    foldBlocks row m cs (x.take (m * row.b)) = foldBlocks row m cs x := by
  conv => rhs; rw [← List.take_append_drop (m * row.b) x]
  rw [← Nat.add_zero m, foldBlocks_append row m 0 cs _ (by simp; omega)]
  simp

/-- One block. -/
theorem foldBlocks_one (row : AlgRecord) (cs : Nat) {block : List Byte} (h : block.length = row.b) :
    foldBlocks row 1 cs block = row.compressBlock cs block := by
  simp [foldBlocks_succ, ← h]

/-- A fold of a core state of `CSW` bits is one. -/
theorem foldBlocks_lt (row : AlgRecord) (m : Nat) {cs : Nat} (data : List Byte) (h : cs < 2 ^ row.csw) :
    foldBlocks row m cs data < 2 ^ row.csw := by
  induction m generalizing cs data with
  | zero => exact h
  | succ m ih => exact ih _ (row.compressBlock_lt ..)

/-- `compress` of `m` whole blocks is the fold of `m` blocks. -/
theorem compress_blocks {row : AlgRecord} (m cs : Nat) {data : List Byte} (hb : 0 < row.b)
    (h : data.length = m * row.b) : compress row cs data = some (foldBlocks row m cs data) := by
  simp [compress, h, Nat.mul_div_cancel _ hb]

/-- `compress` of one block is `F`. -/
theorem compress_one {row : AlgRecord} (cs : Nat) {block : List Byte} (hb : 0 < row.b)
    (h : block.length = row.b) : compress row cs block = some (row.compressBlock cs block) := by
  rw [compress_blocks 1 cs hb (by simpa using h), foldBlocks_one row cs h]

/-- `compress` answers exactly on whole blocks; otherwise it is the invariant violation. -/
theorem compress_eq_none {row : AlgRecord} {cs : Nat} {data : List Byte} :
    compress row cs data = none ↔ data.length % row.b ≠ 0 := by
  unfold compress
  split <;> simp [*]

/-- What `compress` answers keeps the width of the core state. -/
theorem compress_lt {row : AlgRecord} {cs cs' : Nat} {data : List Byte} (h : compress row cs data = some cs')
    (hcs : cs < 2 ^ row.csw) : cs' < 2 ^ row.csw := by
  unfold compress at h
  split at h
  · cases h; exact foldBlocks_lt row _ _ hcs
  · cases h

end Sys2Proof.Machine
end

