-- ==== Sys2Proof/Laws/Accumulate.lean ====
section
/-! SUPPORT. What each step of `absorb` does on a slot whose fill count is below the block length, and what
they do together (40_update.md R82, R87). -/

namespace Sys2Proof.Machine

variable {row : AlgRecord} {sl : Slot} {data : List Byte}

/-- Step 1 either leaves the partial block partial and no input, or leaves the buffer empty, having folded `j`
blocks, none or one, made of the pending bytes and the front of the input. -/
theorem absorbFill_cases (hb : 0 < row.b) (hf : sl.fc < row.b) (hl : row.b ≤ sl.pb.length) :
    (sl.fc + data.length < row.b ∧ 0 < sl.fc ∧
      absorbFill row sl data =
        some ({ sl with pb := writeAt sl.pb sl.fc data, fc := sl.fc + data.length }, [])) ∨
    (∃ j k pb, (sl.pending ++ data.take k).length = j * row.b ∧ k ≤ data.length ∧ pb.length = sl.pb.length ∧
      pb.drop row.b = sl.pb.drop row.b ∧
      absorbFill row sl data =
        some ({ sl with pb := pb, fc := 0, cs := foldBlocks row j sl.cs (sl.pending ++ data.take k) },
          data.drop k)) := by
  unfold absorbFill
  by_cases h0 : 0 < sl.fc
  · by_cases hk : sl.fc + data.length < row.b
    · left
      have : min (row.b - sl.fc) data.length = data.length := by omega
      refine ⟨hk, h0, ?_⟩
      simp only [h0, if_true, this]
      rw [if_neg (by omega)]
      simp
    · right
      have hmin : min (row.b - sl.fc) data.length = row.b - sl.fc := by omega
      have hlen : (data.take (row.b - sl.fc)).length = row.b - sl.fc := by simp; omega
      have hw : writeAt sl.pb sl.fc (data.take (row.b - sl.fc)) =
          sl.pending ++ data.take (row.b - sl.fc) ++ sl.pb.drop row.b := by
        rw [writeAt_eq (by omega), hlen, show sl.fc + (row.b - sl.fc) = row.b by omega]
        rfl
      have hpl : (sl.pending ++ data.take (row.b - sl.fc)).length = row.b := by
        simp [Slot.pending]; omega
      refine ⟨1, row.b - sl.fc, writeAt sl.pb sl.fc (data.take (row.b - sl.fc)), by omega, by omega, by simp,
        ?_, ?_⟩
      · rw [hw, List.drop_left' hpl]
      · simp only [h0, if_true, hmin]
        rw [if_pos (by omega), archBuffer, hw, List.take_left' hpl, compress_blocks 1 _ hb (by omega)]
  · right
    have h0' : sl.fc = 0 := by omega
    refine ⟨0, 0, sl.pb, by simp [Slot.pending, h0'], by omega, rfl, rfl, ?_⟩
    simp [h0']
    cases sl; simp_all

/-- Step 2 folds the whole blocks of the input and leaves less than a block. -/
theorem absorbBulk_eq (hb : 0 < row.b) :
    absorbBulk row sl data =
      some ({ sl with cs := foldBlocks row (data.length / row.b) sl.cs data },
        data.drop (data.length / row.b * row.b)) := by
  unfold absorbBulk
  have hle : data.length / row.b * row.b ≤ data.length := Nat.div_mul_le_self ..
  by_cases hm : 0 < data.length / row.b
  · simp only [hm, if_true]
    rw [compress_blocks (data.length / row.b) _ hb (by rw [List.length_take, Nat.min_eq_left hle]),
      foldBlocks_take _ _ _ hle]
  · have : data.length / row.b = 0 := Nat.eq_zero_of_not_pos hm
    simp [this]

/-- After step 1, `absorb` folds the whole blocks of what is left of the input, copies the tail, and counts. -/
theorem absorb_of_fill (hb : 0 < row.b) {p : Slot × List Byte} (h : absorbFill row sl data = some p) :
    absorb row sl data =
      some { p.1 with
        pb := writeAt p.1.pb p.1.fc (p.2.drop (p.2.length / row.b * row.b))
        fc := p.1.fc + (p.2.drop (p.2.length / row.b * row.b)).length
        tl := p.1.tl + data.length
        cs := foldBlocks row (p.2.length / row.b) p.1.cs p.2 } := by
  simp only [absorb, h, absorbBulk_eq hb, absorbTail]

/-- `absorb` in closed form (R87). -/
theorem absorb_closed_form (hb : 0 < row.b) (hf : sl.fc < row.b) (hl : row.b ≤ sl.pb.length)
    (data : List Byte) :
    ∃ sl', absorb row sl data = some sl' ∧ sl'.tag = sl.tag ∧ sl'.alg = sl.alg ∧
      sl'.fc = (sl.fc + data.length) % row.b ∧ sl'.tl = sl.tl + data.length ∧
      sl'.cs = foldBlocks row ((sl.fc + data.length) / row.b) sl.cs (sl.pending ++ data) ∧
      sl'.pending = (sl.pending ++ data).drop ((sl.fc + data.length) / row.b * row.b) ∧
      sl'.pb.length = sl.pb.length ∧ sl'.pb.drop row.b = sl.pb.drop row.b := by
  rcases absorbFill_cases hb hf hl (data := data) with ⟨hlt, h0, he⟩ | ⟨j, k, pb, hj, hk, hpl, hpd, he⟩
  · have hd : (sl.fc + data.length) / row.b = 0 := Nat.div_eq_of_lt hlt
    refine ⟨_, absorb_of_fill hb he, rfl, rfl, ?_, rfl, ?_, ?_, ?_, ?_⟩
    · simp [Nat.mod_eq_of_lt hlt]
    · simp [hd]
    · rw [hd]
      simp only [Slot.pending, List.length_nil, Nat.zero_div, Nat.zero_mul, List.drop_nil,
        writeAt_nil, Nat.add_zero, List.drop_zero]
      have hl' : (sl.pb.take sl.fc ++ data).length = sl.fc + data.length := by simp; omega
      rw [writeAt_eq (by omega), List.take_left' hl']
    · simp
    · simp only [List.length_nil, Nat.zero_div, Nat.zero_mul, List.drop_nil, writeAt_nil]
      have hl' : (sl.pb.take sl.fc ++ data).length = sl.fc + data.length := by simp; omega
      rw [writeAt_eq (by omega), List.drop_append, hl', List.drop_of_length_le (by omega), List.drop_drop]
      simp [show sl.fc + data.length + (row.b - (sl.fc + data.length)) = row.b by omega]
  · have hsplit : sl.pending ++ data = (sl.pending ++ data.take k) ++ data.drop k := by simp
    have htot : sl.fc + data.length = j * row.b + (data.drop k).length := by
      have : sl.pending.length = sl.fc := by simp [Slot.pending]; omega
      rw [← hj]; simp [this]; omega
    have hdiv : (sl.fc + data.length) / row.b = j + (data.drop k).length / row.b := by
      rw [htot, Nat.add_comm, Nat.add_mul_div_right _ _ hb, Nat.add_comm]
    have hmod : (sl.fc + data.length) % row.b = (data.drop k).length % row.b := by
      rw [htot, Nat.add_comm, Nat.add_mul_mod_self_right]
    have htail : ((data.drop k).drop ((data.drop k).length / row.b * row.b)).length =
        (data.drop k).length % row.b := by
      rw [List.length_drop]
      have := Nat.div_add_mod' (data.drop k).length row.b
      omega
    have hlt : (data.drop k).length % row.b < row.b := Nat.mod_lt _ hb
    refine ⟨_, absorb_of_fill hb he, rfl, rfl, ?_, rfl, ?_, ?_, ?_, ?_⟩
    · simp only [htail, hmod, Nat.zero_add]
    · simp only
      rw [hdiv, hsplit, foldBlocks_append _ _ _ _ _ hj]
    · have hpend : (writeAt pb 0 ((data.drop k).drop ((data.drop k).length / row.b * row.b))).take
          ((data.drop k).drop ((data.drop k).length / row.b * row.b)).length =
          (data.drop k).drop ((data.drop k).length / row.b * row.b) := by
        rw [writeAt_eq (by omega)]
        simp
      simp only [Slot.pending, Nat.zero_add]
      rw [hpend]
      change _ = (sl.pending ++ data).drop _
      have hdrop : (sl.pending ++ data.take k).drop (j * row.b + (data.drop k).length / row.b * row.b) = [] :=
        List.drop_of_length_le (by rw [hj]; omega)
      rw [hsplit, hdiv, Nat.add_mul, List.drop_append, hj, hdrop]
      simp
    · simp [hpl]
    · simp only
      rw [writeAt_eq (by omega), List.take_zero, List.nil_append, List.drop_append,
        List.drop_of_length_le (by omega), List.drop_drop, List.nil_append, ← hpd]
      congr 1
      omega

/-- What `absorb` never touches, whatever it answers: the tag, the algorithm, the size of the storage. -/
theorem absorb_keeps {sl' : Slot} (h : absorb row sl data = some sl') :
    sl'.tag = sl.tag ∧ sl'.alg = sl.alg ∧ sl'.tl = sl.tl + data.length ∧ sl'.pb.length = sl.pb.length := by
  unfold absorb at h
  split at h
  · cases h
  · rename_i p hp
    have h1 : p.1.tag = sl.tag ∧ p.1.alg = sl.alg ∧ p.1.tl = sl.tl ∧ p.1.pb.length = sl.pb.length := by
      unfold absorbFill at hp
      split at hp
      · dsimp only at hp
        split at hp
        · split at hp
          · cases hp; simp
          · cases hp
        · cases hp; simp
      · cases hp; simp
    split at h
    · cases h
    · rename_i q hq
      have h2 : q.1.tag = p.1.tag ∧ q.1.alg = p.1.alg ∧ q.1.tl = p.1.tl ∧ q.1.pb = p.1.pb := by
        unfold absorbBulk at hq
        dsimp only at hq
        split at hq
        · split at hq
          · cases hq; simp
          · cases hq
        · cases hq; simp
      cases h
      simp [absorbTail, h1, h2]

end Sys2Proof.Machine
end

