-- ==== Sys2Proof/Laws/Encoding.lean ====
section
/-! SUPPORT. The fields of a command word, its serialisation, the framing of a packet, and what each row of
the match and mask table says of the fields (30_encoding.md R62 to R65). -/

namespace Sys2Proof

/-! ### Fields of an assembled word -/

section fields

variable (op d s r : BitVec 4) (imm : BitVec 16)

@[simp] theorem fieldOp_assembleWord : fieldOp (assembleWord op d s r imm) = op := by
  ext i hi
  simp [fieldOp, assembleWord]
  grind

@[simp] theorem fieldCtxD_assembleWord : fieldCtxD (assembleWord op d s r imm) = d := by
  ext i hi
  simp [fieldCtxD, assembleWord]
  grind

@[simp] theorem fieldCtxS_assembleWord : fieldCtxS (assembleWord op d s r imm) = s := by
  ext i hi
  simp [fieldCtxS, assembleWord]
  grind

@[simp] theorem fieldRsv_assembleWord : fieldRsv (assembleWord op d s r imm) = r := by
  ext i hi
  simp [fieldRsv, assembleWord]
  grind

@[simp] theorem fieldImm_assembleWord : fieldImm (assembleWord op d s r imm) = imm := by
  ext i hi
  simp [fieldImm, assembleWord]
  grind

end fields

/-- A word is the assembly of its fields. -/
theorem assembleWord_fields (w : Word) :
    assembleWord (fieldOp w) (fieldCtxD w) (fieldCtxS w) (fieldRsv w) (fieldImm w) = w := by
  ext i hi
  simp [assembleWord, fieldOp, fieldCtxD, fieldCtxS, fieldRsv, fieldImm]
  grind

/-- Words with equal fields are equal. -/
theorem assembleWord_inj {op d s r op' d' s' r' : BitVec 4} {imm imm' : BitVec 16} :
    assembleWord op d s r imm = assembleWord op' d' s' r' imm' ↔
      op = op' ∧ d = d' ∧ s = s' ∧ r = r' ∧ imm = imm' := by
  constructor
  · intro h
    refine ⟨?_, ?_, ?_, ?_, ?_⟩
    · simpa using congrArg fieldOp h
    · simpa using congrArg fieldCtxD h
    · simpa using congrArg fieldCtxS h
    · simpa using congrArg fieldRsv h
    · simpa using congrArg fieldImm h
  · rintro ⟨rfl, rfl, rfl, rfl, rfl⟩
    rfl

theorem fieldLow_eq (w : Word) : fieldLow w = (fieldImm w).extractLsb' 0 8 := by
  ext i hi
  simp [fieldLow, fieldImm]

@[simp] theorem fieldLow_assembleWord (op d s r : BitVec 4) (hi lo : BitVec 8) :
    fieldLow (assembleWord op d s r (hi ++ lo)) = lo := by
  rw [fieldLow_eq, fieldImm_assembleWord]
  ext i h
  simp
  grind

/-- A 16-bit immediate whose upper byte is zero is its lower byte. -/
theorem imm_eq_low {imm : BitVec 16} (h : imm &&& 0xFF00#16 = 0#16) : imm = 0#8 ++ imm.extractLsb' 0 8 := by
  have hb : ∀ i, 8 ≤ i → i < 16 → imm.getLsbD i = false := by
    intro i h8 h16
    have := congrArg (fun v => BitVec.getLsbD v i) h
    have hm : (0xFF00#16).getLsbD i = true := by
      interval_cases i <;> rfl
    simpa [hm] using this
  ext i hi
  rw [BitVec.getElem_append]
  split
  · simp [BitVec.getLsbD_eq_getElem hi]
  · simpa [BitVec.getLsbD_eq_getElem hi] using hb i (by omega) hi

/-! ### The match and mask table -/

/-- A bitwise AND acts field by field. -/
theorem assembleWord_and (op d s r op' d' s' r' : BitVec 4) (imm imm' : BitVec 16) :
    assembleWord op d s r imm &&& assembleWord op' d' s' r' imm' =
      assembleWord (op &&& op') (d &&& d') (s &&& s') (r &&& r') (imm &&& imm') := by
  ext i hi
  simp [assembleWord]
  grind

/-- A row whose mask covers `op`, some of `ctxS`, `rsv` and some of `imm`, as a condition on the fields. -/
theorem and_eq_iff_fields (w : Word) (op ms : BitVec 4) (mi : BitVec 16) {mask pattern : Word}
    (hm : mask = assembleWord 0xF#4 0#4 ms 0xF#4 mi) (hp : pattern = assembleWord op 0#4 0#4 0#4 0#16) :
    w &&& mask = pattern ↔
      fieldOp w = op ∧ fieldCtxS w &&& ms = 0#4 ∧ fieldRsv w = 0#4 ∧ fieldImm w &&& mi = 0#16 := by
  subst hm hp
  conv => lhs; rw [← assembleWord_fields w]
  rw [assembleWord_and, assembleWord_inj]
  have h (x : BitVec 4) : x &&& 0xF#4 = x := BitVec.and_allOnes
  simp [h]

/-- What each row of R63 says of the fields of a word. -/
theorem selects_iff (w : Word) :
    (w &&& 0xF0FFFF00#32 = 0x10000000#32 ↔
      fieldOp w = 1#4 ∧ fieldCtxS w = 0#4 ∧ fieldRsv w = 0#4 ∧ fieldImm w &&& 0xFF00#16 = 0#16) ∧
    (w &&& 0xF0FF0000#32 = 0x20000000#32 ↔ fieldOp w = 2#4 ∧ fieldCtxS w = 0#4 ∧ fieldRsv w = 0#4) ∧
    (w &&& 0xF0FFFF00#32 = 0x30000000#32 ↔
      fieldOp w = 3#4 ∧ fieldCtxS w = 0#4 ∧ fieldRsv w = 0#4 ∧ fieldImm w &&& 0xFF00#16 = 0#16) ∧
    (w &&& 0xF0FFFFFF#32 = 0x40000000#32 ↔
      fieldOp w = 4#4 ∧ fieldCtxS w = 0#4 ∧ fieldRsv w = 0#4 ∧ fieldImm w = 0#16) ∧
    (w &&& 0xF00FFFFF#32 = 0x50000000#32 ↔ fieldOp w = 5#4 ∧ fieldRsv w = 0#4 ∧ fieldImm w = 0#16) ∧
    (w &&& 0xF0FFFFFF#32 = 0x60000000#32 ↔
      fieldOp w = 6#4 ∧ fieldCtxS w = 0#4 ∧ fieldRsv w = 0#4 ∧ fieldImm w = 0#16) := by
  have hF (x : BitVec 4) : x &&& 0xF#4 = x := BitVec.and_allOnes
  have hI (x : BitVec 16) : x &&& 0xFFFF#16 = x := BitVec.and_allOnes
  refine ⟨?_, ?_, ?_, ?_, ?_, ?_⟩
  · simpa only [hF] using
      and_eq_iff_fields w 1#4 0xF#4 0xFF00#16 (mask := 0xF0FFFF00#32) (pattern := 0x10000000#32) rfl rfl
  · simpa [hF] using
      and_eq_iff_fields w 2#4 0xF#4 0#16 (mask := 0xF0FF0000#32) (pattern := 0x20000000#32) rfl rfl
  · simpa only [hF] using
      and_eq_iff_fields w 3#4 0xF#4 0xFF00#16 (mask := 0xF0FFFF00#32) (pattern := 0x30000000#32) rfl rfl
  · simpa only [hF, hI] using
      and_eq_iff_fields w 4#4 0xF#4 0xFFFF#16 (mask := 0xF0FFFFFF#32) (pattern := 0x40000000#32) rfl rfl
  · simpa [hF, hI] using
      and_eq_iff_fields w 5#4 0#4 0xFFFF#16 (mask := 0xF00FFFFF#32) (pattern := 0x50000000#32) rfl rfl
  · simpa only [hF, hI] using
      and_eq_iff_fields w 6#4 0xF#4 0xFFFF#16 (mask := 0xF0FFFFFF#32) (pattern := 0x60000000#32) rfl rfl

/-- The row a word selects, as a chain of conditions. -/
theorem selectRow_eq (w : Word) :
    selectRow w =
      if w &&& 0xF0FFFF00#32 = 0x10000000#32 then some .new
      else if w &&& 0xF0FF0000#32 = 0x20000000#32 then some .update
      else if w &&& 0xF0FFFF00#32 = 0x30000000#32 then some .update1
      else if w &&& 0xF0FFFFFF#32 = 0x40000000#32 then some .digest
      else if w &&& 0xF00FFFFF#32 = 0x50000000#32 then some .duplicate
      else if w &&& 0xF0FFFFFF#32 = 0x60000000#32 then some .erase
      else none := by
  simp only [selectRow, opRows, OpRow.selects, List.find?_cons, List.find?_nil]
  repeat' split
  all_goals simp_all

/-! ### Serialisation and framing -/

/-- Serialising a word and reading it back gives it, in either order. -/
theorem bytesWord_wordBytes (order : Endian) (w : Word) :
    ∃ b0 b1 b2 b3, wordBytes order w = [b0, b1, b2, b3] ∧ bytesWord order b0 b1 b2 b3 = w := by
  have h : w.extractLsb' 24 8 ++ w.extractLsb' 16 8 ++ w.extractLsb' 8 8 ++ w.extractLsb' 0 8 = w := by
    ext i hi
    simp
    grind
  cases order with
  | le => exact ⟨_, _, _, _, rfl, h⟩
  | be => exact ⟨_, _, _, _, rfl, h⟩

/-- Reading four bytes as a word and serialising it gives them, in either order. -/
theorem wordBytes_bytesWord (order : Endian) (b0 b1 b2 b3 : Byte) :
    wordBytes order (bytesWord order b0 b1 b2 b3) = [b0, b1, b2, b3] := by
  have h (a b c d : Byte) : (a ++ b ++ c ++ d).extractLsb' 0 8 = d ∧ (a ++ b ++ c ++ d).extractLsb' 8 8 = c ∧
      (a ++ b ++ c ++ d).extractLsb' 16 8 = b ∧ (a ++ b ++ c ++ d).extractLsb' 24 8 = a := by
    refine ⟨?_, ?_, ?_, ?_⟩ <;> ext i hi <;> simp <;> grind
  cases order with
  | le =>
    obtain ⟨h0, h1, h2, h3⟩ := h b3 b2 b1 b0
    simp only [wordBytes, wordBytesLE, bytesWord]
    rw [h0, h1, h2, h3]
  | be =>
    obtain ⟨h0, h1, h2, h3⟩ := h b0 b1 b2 b3
    simp only [wordBytes, wordBytesLE, bytesWord]
    rw [h0, h1, h2, h3]
    rfl

/-- `takeExact` answers exactly when there are enough bytes, and then with those bytes and the rest. -/
theorem takeExact_eq (n : Nat) (bs : List Byte) :
    takeExact n bs = if n ≤ bs.length then some (bs.take n, bs.drop n) else none := by
  induction n generalizing bs with
  | zero => simp [takeExact]
  | succ n ih =>
    cases bs with
    | nil => simp [takeExact]
    | cons b bs =>
      simp only [takeExact, ih, List.length_cons, Nat.add_le_add_iff_right]
      split <;> simp

/-- A framed packet is the front of the stream: the word's bytes, its payload, the rest. -/
theorem framePacket_eq_packet {order : Endian} {bs payload rest : List Byte} {w : Word}
    (h : framePacket order bs = .packet w payload rest) :
    bs = wordBytes order w ++ payload ++ rest ∧ payload.length = payloadLength w := by
  unfold framePacket at h
  split at h
  · rename_i b0 b1 b2 b3 tail
    split at h
    · rename_i p hp
      rw [takeExact_eq] at hp
      split at hp
      · cases hp
        cases h
        refine ⟨?_, by simp; omega⟩
        rw [wordBytes_bytesWord]
        simp
      · cases hp
    · cases h
  · cases h

/-- The front of the stream that holds a word's bytes and its payload is framed as that packet. -/
theorem framePacket_streamBytes (order : Endian) (w : Word) (payload rest : List Byte)
    (h : payload.length = payloadLength w) :
    framePacket order (wordBytes order w ++ payload ++ rest) = .packet w payload rest := by
  obtain ⟨b0, b1, b2, b3, hb, hw⟩ := bytesWord_wordBytes order w
  rw [hb]
  simp only [List.cons_append, List.nil_append, framePacket, hw, takeExact_eq]
  simp [← h]

end Sys2Proof
end

