-- ==== Sys2Proof/Laws/Padding.lean ====
section
/-! SUPPORT. What the padding paths do: each path's blocks are the pending bytes and the padding of the
reference digest, and the dispatch folds exactly them (41_digest_padding.md R105 to R114). -/

namespace Sys2Proof.Machine

variable {row : AlgRecord} {pb : List Byte} {f tl : Nat}

@[simp] theorem length_lengthField (row : AlgRecord) (tl : Nat) : (lengthField row tl).length = row.pol.lfw := by
  unfold lengthField
  split <;> simp

/-- The number of zeros of the MDL padding on the fit path and on the spill path. -/
theorem mdl_zeros (hf : f < row.b) (hl : row.pol.lfw ≤ row.b) :
    (row.b - (f + 1 + row.pol.lfw) % row.b) % row.b =
      if f + 1 + row.pol.lfw ≤ row.b then row.b - f - 1 - row.pol.lfw
      else 2 * row.b - f - 1 - row.pol.lfw := by
  by_cases hfit : f + 1 + row.pol.lfw ≤ row.b
  · rw [if_pos hfit]
    by_cases he : f + 1 + row.pol.lfw = row.b
    · simp [he]; omega
    · rw [Nat.mod_eq_of_lt (by omega : f + 1 + row.pol.lfw < row.b), Nat.mod_eq_of_lt (by omega)]
      omega
  · rw [if_neg hfit]
    have hm : (f + 1 + row.pol.lfw) % row.b = (f + 1 + row.pol.lfw - row.b) % row.b :=
      Nat.mod_eq_sub_mod (by omega)
    by_cases he : f + 1 + row.pol.lfw = 2 * row.b
    · rw [hm, he, show 2 * row.b - row.b = row.b by omega]
      simp; omega
    · rw [hm, Nat.mod_eq_of_lt (by omega : f + 1 + row.pol.lfw - row.b < row.b), Nat.mod_eq_of_lt (by omega)]
      omega

/-- The block of the fit path is the pending bytes and their padding. -/
theorem fitBlock_eq (hpb : pb.length = row.b) (hf : f < row.b) (hfit : f + 1 + row.pol.lfw ≤ row.b) :
    fitBlock row pb f tl = pb.take f ++ mdlPad row f tl := by
  have hl : (pb.take f).length = f := by simp; omega
  rw [fitBlock, placeLengthField, markedBlock, mdlPad, mdl_zeros hf (by omega), if_pos hfit,
    List.take_append, hl, List.take_of_length_le (by omega),
    show row.b - row.pol.lfw - f = row.b - f - 1 - row.pol.lfw + 1 by omega, List.take_succ_cons]
  simp

/-- The two blocks of the spill path are the pending bytes and their padding. -/
theorem spillBlocks_eq (hf : f < row.b) (hl : row.pol.lfw ≤ row.b)
    (hspill : ¬ f + 1 + row.pol.lfw ≤ row.b) :
    markedBlock row pb f ++ lengthBlock row tl = pb.take f ++ mdlPad row f tl := by
  rw [markedBlock, lengthBlock, placeLengthField, mdlPad, mdl_zeros hf hl, if_neg hspill]
  simp only [take_zeros, Nat.min_eq_left (Nat.sub_le row.b row.pol.lfw), List.append_assoc,
    List.cons_append]
  rw [← List.append_assoc (zeros _) (zeros _), zeros_append,
    show row.b - f - 1 + (row.b - row.pol.lfw) = 2 * row.b - f - 1 - row.pol.lfw by omega]

/-- The marked block is one block. -/
theorem length_markedBlock (hpb : pb.length = row.b) (hf : f < row.b) :
    (markedBlock row pb f).length = row.b := by
  simp [markedBlock]; omega

theorem length_lengthBlock (hl : row.pol.lfw ≤ row.b) : (lengthBlock row tl).length = row.b := by
  simp [lengthBlock, placeLengthField]; omega

theorem length_fitBlock (hpb : pb.length = row.b) (hf : f < row.b) (hfit : f + 1 + row.pol.lfw ≤ row.b) :
    (fitBlock row pb f tl).length = row.b := by
  simp [fitBlock, placeLengthField, length_markedBlock hpb hf]; omega

/-- The first block of the MD2 path is the pending bytes and their padding. -/
theorem md2Block_eq (hf : f < row.b) : md2Block row pb f = pb.take f ++ md2Pad row f := by
  rw [md2Block, md2Pad, Nat.mod_eq_of_lt hf]

theorem length_md2Block (hpb : pb.length = row.b) (hf : f < row.b) : (md2Block row pb f).length = row.b := by
  simp [md2Block]; omega

/-- Modifying the byte behind a prefix. -/
theorem modify_behind (x : List Byte) (b : Byte) (y : List Byte) (n : Nat) (g : Byte → Byte) (h : n = x.length) :
    (x ++ b :: y).modify n g = x ++ g b :: y := by
  subst h
  induction x with
  | nil => rfl
  | cons a x ih => simpa using ih

/-- The block of the SPONGE path is the pending bytes and their padding. -/
theorem spongeBlock_eq (hpb : pb.length = row.b) (hf : f < row.b) :
    spongeBlock row pb f = pb.take f ++ spongePad row f := by
  have hl : (pb.take f).length = f := by simp; omega
  rw [spongeBlock, spongePad, Nat.mod_eq_of_lt hf]
  by_cases h1 : row.b - f = 1
  · rw [if_pos h1, show row.b - f - 1 = 0 by omega, zeros_zero, modify_behind _ _ _ _ _ (by omega)]
  · have hz : zeros (row.b - f - 1) = zeros (row.b - f - 2) ++ [0#8] := by
      rw [show row.b - f - 1 = row.b - f - 2 + 1 by omega, ← zeros_append]
      rfl
    rw [if_neg h1, hz, ← List.cons_append, ← List.append_assoc,
      modify_behind _ _ _ _ _ (by simp [hl]; omega)]
    simp

theorem length_spongeBlock (hpb : pb.length = row.b) (hf : f < row.b) :
    (spongeBlock row pb f).length = row.b := by
  simp [spongeBlock]; omega

/-- The dispatch never violates the contract of `compress`, and comes to the core state after the padded
bytes (R113, R114). -/
theorem padDispatch_eq (hw : row.wf = true) (hpb : pb.length = row.b) (hf : f < row.b) (cs tl : Nat) :
    padDispatch row cs pb f tl = some (paddedState row cs tl (pb.take f)) := by
  have hb := row.b_pos hw
  have hl : (pb.take f).length = f := by simp; omega
  unfold padDispatch paddedState
  cases hk : row.pol.kind with
  | mdl =>
    have hlfw := (Policy.wf_mdl (row.pol_wf hw) hk).1
    by_cases hfit : f + 1 + row.pol.lfw ≤ row.b
    · simp only [fits, hfit, decide_true, if_true, padFit, hl]
      rw [compress, foldAll, ← fitBlock_eq hpb hf hfit, length_fitBlock hpb hf hfit]
      simp
    · simp only [fits, hfit, decide_false, padSpill, hl]
      have hm := length_markedBlock hpb hf
      have hq : (lengthBlock row tl).length = row.b := length_lengthBlock hlfw
      rw [compress_blocks 1 cs hb (by omega)]
      simp only [Bool.false_eq_true, if_false]
      rw [compress_blocks 1 _ hb (by omega), foldAll, ← spillBlocks_eq hf hlfw hfit, List.length_append, hm, hq,
        show (row.b + row.b) / row.b = 1 + 1 by rw [← Nat.two_mul, Nat.mul_div_cancel _ hb],
        foldBlocks_append row 1 1 cs _ (by omega)]
  | md2 =>
    simp only [padMd2, hl]
    rw [compress_one cs hb (length_md2Block hpb hf)]
    simp only
    rw [compress_one _ hb (row.length_checksum _), foldAll, ← md2Block_eq hf, length_md2Block hpb hf,
      Nat.div_self hb, foldBlocks_one _ _ (length_md2Block hpb hf)]
  | sponge =>
    simp only [padSponge, hl]
    rw [compress_one cs hb (length_spongeBlock hpb hf), foldAll, ← spongeBlock_eq hpb hf,
      length_spongeBlock hpb hf, Nat.div_self hb, foldBlocks_one _ _ (length_spongeBlock hpb hf)]

/-- `finalizeDestructively` on a legal record, a whole partial block and a fill count below it: the length
check, then the digest of the padded bytes; never a violation (R101, R113). -/
theorem finalizeDestructively_eq (hw : row.wf = true) (hpb : pb.length = row.b) (hf : f < row.b) (cs tl : Nat) :
    finalizeDestructively row cs pb f tl =
      if tooLong row tl = true then .tooLong
      else .digest (row.output (paddedState row cs tl (pb.take f))) := by
  unfold finalizeDestructively
  rw [padDispatch_eq hw hpb hf]

end Sys2Proof.Machine
end

