-- ==== Sys2Proof/Laws/State.lean ====
section
/-! SUPPORT. What each update of the state does to each field, and what it does to the slots. -/

namespace Sys2Proof.Machine

variable (s : State)

/-! ### `setSlot` -/

@[simp] theorem State.setSlot_ctx (c : Nat) (sl : Slot) : (s.setSlot c sl).ctx = s.ctx.set c sl := rfl

@[simp] theorem State.setSlot_fault (c : Nat) (sl : Slot) : (s.setSlot c sl).fault = s.fault := rfl

@[simp] theorem State.setSlot_scratch (c : Nat) (sl : Slot) : (s.setSlot c sl).scratch = s.scratch := rfl

@[simp] theorem State.setSlot_phase (c : Nat) (sl : Slot) : (s.setSlot c sl).phase = s.phase := rfl

@[simp] theorem State.setSlot_cfg (c : Nat) (sl : Slot) : (s.setSlot c sl).cfg = s.cfg := rfl

@[simp] theorem State.setSlot_input (c : Nat) (sl : Slot) : (s.setSlot c sl).input = s.input := rfl

@[simp] theorem State.setSlot_out (c : Nat) (sl : Slot) : (s.setSlot c sl).out = s.out := rfl

@[simp] theorem State.setSlot_rst (c : Nat) (sl : Slot) : (s.setSlot c sl).rst = s.rst := rfl

@[simp] theorem State.setSlot_coreReq (c : Nat) (sl : Slot) : (s.setSlot c sl).coreReq = s.coreReq := rfl

@[simp] theorem State.setSlot_coreReply (c : Nat) (sl : Slot) :
    (s.setSlot c sl).coreReply = s.coreReply := rfl

@[simp] theorem State.setSlot_freeIx (c : Nat) (sl : Slot) : (s.setSlot c sl).freeIx = s.freeIx := rfl

/-! ### `accept` -/

@[simp] theorem State.accept_ctx (rest : List Byte) : (s.accept rest).ctx = s.ctx := rfl

@[simp] theorem State.accept_fault (rest : List Byte) : (s.accept rest).fault = s.fault := rfl

@[simp] theorem State.accept_scratch (rest : List Byte) : (s.accept rest).scratch = s.scratch := rfl

@[simp] theorem State.accept_phase (rest : List Byte) : (s.accept rest).phase = .decode := rfl

@[simp] theorem State.accept_cfg (rest : List Byte) : (s.accept rest).cfg = s.cfg := rfl

@[simp] theorem State.accept_input (rest : List Byte) : (s.accept rest).input = rest := rfl

@[simp] theorem State.accept_out (rest : List Byte) : (s.accept rest).out = s.out := rfl

@[simp] theorem State.accept_rst (rest : List Byte) : (s.accept rest).rst = s.rst := rfl

@[simp] theorem State.accept_coreReq (rest : List Byte) : (s.accept rest).coreReq = s.coreReq := rfl

@[simp] theorem State.accept_coreReply (rest : List Byte) :
    (s.accept rest).coreReply = s.coreReply := rfl

@[simp] theorem State.accept_freeIx (rest : List Byte) : (s.accept rest).freeIx = s.freeIx := rfl

/-! ### `respond` -/

@[simp] theorem State.respond_ctx (st : Status) (digest : List Byte) :
    (s.respond st digest).ctx = s.ctx := rfl

@[simp] theorem State.respond_fault (st : Status) (digest : List Byte) :
    (s.respond st digest).fault = s.fault := rfl

@[simp] theorem State.respond_scratch (st : Status) (digest : List Byte) :
    (s.respond st digest).scratch = s.scratch := rfl

@[simp] theorem State.respond_phase (st : Status) (digest : List Byte) :
    (s.respond st digest).phase = .idle := rfl

@[simp] theorem State.respond_cfg (st : Status) (digest : List Byte) :
    (s.respond st digest).cfg = s.cfg := rfl

@[simp] theorem State.respond_input (st : Status) (digest : List Byte) :
    (s.respond st digest).input = s.input := rfl

@[simp] theorem State.respond_out (st : Status) (digest : List Byte) :
    (s.respond st digest).out = s.out ++ [{ status := st, digest := digest }] := rfl

@[simp] theorem State.respond_rst (st : Status) (digest : List Byte) :
    (s.respond st digest).rst = s.rst := rfl

@[simp] theorem State.respond_coreReq (st : Status) (digest : List Byte) :
    (s.respond st digest).coreReq = s.coreReq := rfl

@[simp] theorem State.respond_coreReply (st : Status) (digest : List Byte) :
    (s.respond st digest).coreReply = s.coreReply := rfl

@[simp] theorem State.respond_freeIx (st : Status) (digest : List Byte) :
    (s.respond st digest).freeIx = s.freeIx := rfl

/-! ### `raise` -/

@[simp] theorem State.raise_ctx (st : Status) : (s.raise st).ctx = s.ctx := rfl

@[simp] theorem State.raise_fault (st : Status) : (s.raise st).fault = s.fault := rfl

@[simp] theorem State.raise_scratch (st : Status) : (s.raise st).scratch = s.scratch := rfl

@[simp] theorem State.raise_phase (st : Status) : (s.raise st).phase = .idle := rfl

@[simp] theorem State.raise_cfg (st : Status) : (s.raise st).cfg = s.cfg := rfl

@[simp] theorem State.raise_input (st : Status) : (s.raise st).input = s.input := rfl

@[simp] theorem State.raise_out (st : Status) :
    (s.raise st).out = s.out ++ [{ status := st, digest := [] }] := rfl

@[simp] theorem State.raise_rst (st : Status) : (s.raise st).rst = s.rst := rfl

@[simp] theorem State.raise_coreReq (st : Status) : (s.raise st).coreReq = s.coreReq := rfl

@[simp] theorem State.raise_coreReply (st : Status) : (s.raise st).coreReply = s.coreReply := rfl

@[simp] theorem State.raise_freeIx (st : Status) : (s.raise st).freeIx = s.freeIx := rfl

/-! ### `snapshot` -/

@[simp] theorem State.snapshot_ctx (c : Nat) : (s.snapshot c).ctx = s.ctx := rfl

@[simp] theorem State.snapshot_fault (c : Nat) : (s.snapshot c).fault = s.fault := rfl

@[simp] theorem State.snapshot_scratch (c : Nat) : (s.snapshot c).scratch = (s.slot c).toScratch := rfl

@[simp] theorem State.snapshot_phase (c : Nat) : (s.snapshot c).phase = .gSnap := rfl

@[simp] theorem State.snapshot_cfg (c : Nat) : (s.snapshot c).cfg = s.cfg := rfl

@[simp] theorem State.snapshot_input (c : Nat) : (s.snapshot c).input = s.input := rfl

@[simp] theorem State.snapshot_out (c : Nat) : (s.snapshot c).out = s.out := rfl

@[simp] theorem State.snapshot_rst (c : Nat) : (s.snapshot c).rst = s.rst := rfl

@[simp] theorem State.snapshot_coreReq (c : Nat) : (s.snapshot c).coreReq = s.coreReq := rfl

@[simp] theorem State.snapshot_coreReply (c : Nat) : (s.snapshot c).coreReply = s.coreReply := rfl

@[simp] theorem State.snapshot_freeIx (c : Nat) : (s.snapshot c).freeIx = s.freeIx := rfl

/-! ### `discardScratch` -/

@[simp] theorem State.discardScratch_ctx : s.discardScratch.ctx = s.ctx := rfl

@[simp] theorem State.discardScratch_fault : s.discardScratch.fault = s.fault := rfl

@[simp] theorem State.discardScratch_scratch : s.discardScratch.scratch = Scratch.zero s.cfg.bmax := rfl

@[simp] theorem State.discardScratch_phase : s.discardScratch.phase = s.phase := rfl

@[simp] theorem State.discardScratch_cfg : s.discardScratch.cfg = s.cfg := rfl

@[simp] theorem State.discardScratch_input : s.discardScratch.input = s.input := rfl

@[simp] theorem State.discardScratch_out : s.discardScratch.out = s.out := rfl

@[simp] theorem State.discardScratch_rst : s.discardScratch.rst = s.rst := rfl

@[simp] theorem State.discardScratch_coreReq : s.discardScratch.coreReq = s.coreReq := rfl

@[simp] theorem State.discardScratch_coreReply : s.discardScratch.coreReply = s.coreReply := rfl

@[simp] theorem State.discardScratch_freeIx : s.discardScratch.freeIx = s.freeIx := rfl

/-! ### `abortUpdate` -/

@[simp] theorem State.abortUpdate_ctx (c : Nat) :
    (s.abortUpdate c).ctx = s.ctx.set c ((s.slot c).partlyWritten s.cfg.bmax s.freeIx) := rfl

@[simp] theorem State.abortUpdate_fault (c : Nat) : (s.abortUpdate c).fault = true := rfl

@[simp] theorem State.abortUpdate_scratch (c : Nat) : (s.abortUpdate c).scratch = s.scratch := rfl

@[simp] theorem State.abortUpdate_phase (c : Nat) : (s.abortUpdate c).phase = .idle := rfl

@[simp] theorem State.abortUpdate_cfg (c : Nat) : (s.abortUpdate c).cfg = s.cfg := rfl

@[simp] theorem State.abortUpdate_input (c : Nat) : (s.abortUpdate c).input = s.input := rfl

@[simp] theorem State.abortUpdate_out (c : Nat) :
    (s.abortUpdate c).out = s.out ++ [{ status := .fInvariant, digest := [] }] := rfl

@[simp] theorem State.abortUpdate_rst (c : Nat) : (s.abortUpdate c).rst = s.rst := rfl

@[simp] theorem State.abortUpdate_coreReq (c : Nat) : (s.abortUpdate c).coreReq = s.coreReq := rfl

@[simp] theorem State.abortUpdate_coreReply (c : Nat) : (s.abortUpdate c).coreReply = s.coreReply := rfl

@[simp] theorem State.abortUpdate_freeIx (c : Nat) : (s.abortUpdate c).freeIx = s.freeIx + 1 := rfl

/-! ### `abortDigest` -/

@[simp] theorem State.abortDigest_ctx : s.abortDigest.ctx = s.ctx := rfl

@[simp] theorem State.abortDigest_fault : s.abortDigest.fault = true := rfl

@[simp] theorem State.abortDigest_scratch :
    s.abortDigest.scratch = { s.scratch with pb := freeBuffer s.cfg.bmax s.freeIx, cs := Config.abortedCore s.freeIx } := rfl

@[simp] theorem State.abortDigest_phase : s.abortDigest.phase = .idle := rfl

@[simp] theorem State.abortDigest_cfg : s.abortDigest.cfg = s.cfg := rfl

@[simp] theorem State.abortDigest_input : s.abortDigest.input = s.input := rfl

@[simp] theorem State.abortDigest_out :
    s.abortDigest.out = s.out ++ [{ status := .fInvariant, digest := [] }] := rfl

@[simp] theorem State.abortDigest_rst : s.abortDigest.rst = s.rst := rfl

@[simp] theorem State.abortDigest_coreReq : s.abortDigest.coreReq = s.coreReq := rfl

@[simp] theorem State.abortDigest_coreReply : s.abortDigest.coreReply = s.coreReply := rfl

@[simp] theorem State.abortDigest_freeIx : s.abortDigest.freeIx = s.freeIx + 1 := rfl

/-! ### `hardwareReset` -/

@[simp] theorem State.hardwareReset_ctx :
    s.hardwareReset.ctx = List.replicate s.cfg.nctx (Slot.canonical s.cfg.bmax) := rfl

@[simp] theorem State.hardwareReset_fault : s.hardwareReset.fault = false := rfl

@[simp] theorem State.hardwareReset_scratch : s.hardwareReset.scratch = Scratch.zero s.cfg.bmax := rfl

@[simp] theorem State.hardwareReset_phase : s.hardwareReset.phase = .idle := rfl

@[simp] theorem State.hardwareReset_cfg : s.hardwareReset.cfg = s.cfg := rfl

@[simp] theorem State.hardwareReset_input : s.hardwareReset.input = [] := rfl

@[simp] theorem State.hardwareReset_out : s.hardwareReset.out = s.out := rfl

@[simp] theorem State.hardwareReset_rst : s.hardwareReset.rst = false := rfl

@[simp] theorem State.hardwareReset_coreReq : s.hardwareReset.coreReq = CoreRequest.idle := rfl

@[simp] theorem State.hardwareReset_coreReply : s.hardwareReset.coreReply = .none := rfl

@[simp] theorem State.hardwareReset_freeIx : s.hardwareReset.freeIx = s.freeIx := rfl

/-! ### Slots -/

variable {s}

/-- The slots depend on the slot array and the size of a buffer alone. -/
theorem State.slot_congr {t : State} (hctx : t.ctx = s.ctx) (hcfg : t.cfg = s.cfg) (x : Nat) :
    t.slot x = s.slot x := by
  unfold State.slot
  rw [hctx, hcfg]

theorem State.slot_setSlot_same {c : Nat} {sl : Slot} (h : c < s.ctx.length) :
    (s.setSlot c sl).slot c = sl := by
  simp [State.slot, h]

theorem State.slot_setSlot_other {c x : Nat} {sl : Slot} (h : x ≠ c) :
    (s.setSlot c sl).slot x = s.slot x := by
  simp [State.slot, List.getElem?_set_ne (Ne.symm h)]

variable (s)

@[simp] theorem State.slot_accept (rest : List Byte) (x : Nat) : (s.accept rest).slot x = s.slot x := rfl

@[simp] theorem State.slot_respond (st : Status) (digest : List Byte) (x : Nat) :
    (s.respond st digest).slot x = s.slot x := rfl

@[simp] theorem State.slot_raise (st : Status) (x : Nat) : (s.raise st).slot x = s.slot x := rfl

@[simp] theorem State.slot_snapshot (c x : Nat) : (s.snapshot c).slot x = s.slot x := rfl

@[simp] theorem State.slot_discardScratch (x : Nat) : s.discardScratch.slot x = s.slot x := rfl

@[simp] theorem State.slot_abortDigest (x : Nat) : s.abortDigest.slot x = s.slot x := rfl

/-! ### Consistency does not mention the input, the phase or the responses -/

@[simp] theorem State.consistent_accept (rest : List Byte) : (s.accept rest).consistent = s.consistent := rfl

@[simp] theorem State.consistent_respond (st : Status) (digest : List Byte) :
    (s.respond st digest).consistent = s.consistent := rfl

@[simp] theorem State.consistent_raise (st : Status) : (s.raise st).consistent = s.consistent := rfl

/-! ### Frames of the shared operations -/

/-- Raising an error refuses the command: one response, nothing else changes. -/
theorem State.raise_refuses (st : Status) : Refuses s (s.raise st) st where
  answers := ⟨rfl, rfl⟩
  slots := ⟨rfl, fun _ => rfl⟩
  scratch := rfl
  rest := ⟨rfl, rfl, rfl, rfl, rfl, rfl, rfl⟩

/-- Writing one slot and responding changes that slot alone. -/
theorem State.setSlot_respond_frame (c : Nat) (sl : Slot) (st : Status) (digest : List Byte) :
    WritesOnlySlot c s ((s.setSlot c sl).respond st digest) where
  others := ⟨by simp, fun _ h => State.slot_setSlot_other (s := s) h⟩
  scratch := rfl
  rest := ⟨rfl, rfl, rfl, rfl, rfl, rfl, rfl⟩

end Sys2Proof.Machine
end

