-- ==== Sys2Proof/Laws/Exec.lean ====
section
/-! SUPPORT. What each meaning can do, said once: if it answers `next t`, one of these cases holds. And what
the invariants say of a slot. -/

namespace Sys2Proof.Machine

variable {s t : State}

/-! ### What a meaning that answers has done -/

/-- NEW refuses, or writes the fresh Hasher. -/
theorem execNew_cases {c : BitVec 4} {alg : BitVec 8} (h : execNew c alg s = .next t) :
    (∃ st, s.refusesNew c alg = some st ∧ t = s.raise st) ∨
    (s.refusesNew c alg = none ∧ ∃ row, s.cfg.row? alg = some row ∧
      t = (s.setSlot c.toNat (freshSlot row alg (s.slot c.toNat))).respond .ok []) := by
  unfold execNew at h
  split at h
  · rename_i st hr
    cases h
    exact .inl ⟨st, hr, rfl⟩
  · rename_i hr
    have hd := (State.refusesNew_eq_none.mp hr).2.2.1
    split at h
    · rename_i hn
      simp [Config.defines, hn] at hd
    · rename_i row hrow
      cases h
      exact .inr ⟨hr, row, hrow, rfl⟩

/-- UPDATE and UPDATE1 refuse, or absorb, or abort on an invariant violation. -/
theorem updateWith_cases {c : BitVec 4} {data : List Byte} (h : updateWith c data s = .next t) :
    (∃ st, s.refusesUse c = some st ∧ t = s.raise st) ∨
    (s.refusesUse c = none ∧ ∃ row, s.slotRow? c.toNat = some row ∧
      ((∃ sl, absorb row (s.slot c.toNat) data = some sl ∧ t = (s.setSlot c.toNat sl).respond .ok []) ∨
       (absorb row (s.slot c.toNat) data = none ∧ t = s.abortUpdate c.toNat))) := by
  unfold updateWith at h
  split at h
  · rename_i st hr
    cases h
    exact .inl ⟨st, hr, rfl⟩
  · rename_i hr
    split at h
    · cases h
    · rename_i row hrow
      refine .inr ⟨hr, row, hrow, ?_⟩
      split at h
      · rename_i sl hsl
        cases h
        exact .inl ⟨sl, hsl, rfl⟩
      · rename_i hsl
        cases h
        exact .inr ⟨hsl, rfl⟩

/-- DIGEST refuses, or answers from the scratch context. -/
theorem execDigest_cases {c : BitVec 4} (h : execDigest c s = .next t) :
    (∃ st, s.refusesUse c = some st ∧ t = s.raise st) ∨
    (s.refusesUse c = none ∧ ∃ row, s.slotRow? c.toNat = some row ∧ t = finishDigest row (s.snapshot c.toNat)) := by
  unfold execDigest at h
  split at h
  · rename_i st hr
    cases h
    exact .inl ⟨st, hr, rfl⟩
  · rename_i hr
    split at h
    · cases h
    · rename_i row hrow
      cases h
      exact .inr ⟨hr, row, hrow, rfl⟩

/-- The end of DIGEST is a digest, a refusal by length, or the abort. -/
theorem finishDigest_cases (row : AlgRecord) (s : State) :
    (∃ bytes, finishDigest row s = s.discardScratch.respond .ok bytes ∧ bytes.length = row.dl) ∨
    finishDigest row s = s.discardScratch.raise .eMsgTooLong ∨ finishDigest row s = s.abortDigest := by
  unfold finishDigest
  split
  · rename_i bytes hr
    refine .inl ⟨bytes, rfl, ?_⟩
    unfold finalizeDestructively at hr
    split at hr
    · cases hr
    · split at hr
      · cases hr; simp
      · cases hr
  · exact .inr (.inl rfl)
  · exact .inr (.inr rfl)

/-- DUPLICATE refuses, or writes the copy. -/
theorem execDuplicate_cases {d src : BitVec 4} (h : execDuplicate d src s = .next t) :
    (∃ st, s.refusesDuplicate d src = some st ∧ t = s.raise st) ∨
    (s.refusesDuplicate d src = none ∧
      t = (s.setSlot d.toNat (copySlot (s.slot src.toNat))).respond .ok []) := by
  unfold execDuplicate at h
  split at h
  · rename_i st hr
    cases h
    exact .inl ⟨st, hr, rfl⟩
  · rename_i hr
    cases h
    exact .inr ⟨hr, rfl⟩

/-- ERASE refuses, or writes the canonical erased slot. -/
theorem execErase_cases {c : BitVec 4} (h : execErase c s = .next t) :
    (∃ st, s.refusesUse c = some st ∧ t = s.raise st) ∨
    (s.refusesUse c = none ∧
      t = (s.setSlot c.toNat (Slot.canonical s.cfg.bmax)).respond .ok []) := by
  unfold execErase at h
  split at h
  · rename_i st hr
    cases h
    exact .inl ⟨st, hr, rfl⟩
  · rename_i hr
    cases h
    exact .inr ⟨hr, rfl⟩

/-- COMPRESS answers on the core port, and may latch `FAULT`. -/
theorem execCompress_cases {a : BitVec 8} {cs : Nat} {data : List Byte} (h : execCompress a cs data s = .next t) :
    ∃ reply fault, t = { s with fault := fault, coreReply := reply } ∧ (s.fault = true → fault = true) := by
  unfold execCompress at h
  split at h
  · cases h
  · split at h
    · cases h; exact ⟨_, _, rfl, id⟩
    · cases h; exact ⟨_, _, rfl, fun _ => rfl⟩

/-- FINALIZE answers on the core port, and may latch `FAULT`. -/
theorem execFinalize_cases {a : BitVec 8} {cs fc tl : Nat} {pb : List Byte}
    (h : execFinalize a cs pb fc tl s = .next t) :
    ∃ reply fault, t = { s with fault := fault, coreReply := reply } ∧ (s.fault = true → fault = true) := by
  unfold execFinalize at h
  split at h
  · cases h
  · split at h
    · split at h
      · cases h; exact ⟨_, _, rfl, id⟩
      · cases h; exact ⟨_, _, rfl, id⟩
      · cases h; exact ⟨_, _, rfl, fun _ => rfl⟩
    · cases h

/-! ### What the invariants say -/

theorem State.consistent_iff : s.consistent = true ↔
    s.cfg.wf = true ∧ s.ctx.length = s.cfg.nctx ∧ (∀ sl ∈ s.ctx, sl.inv s.cfg = true) ∧
      s.scratch = Scratch.zero s.cfg.bmax := by
  simp [State.consistent, and_assoc]

/-- At a command boundary the phase is IDLE besides. -/
theorem State.inv_iff : s.inv = true ↔ s.consistent = true ∧ s.phase = .idle := by
  simp [State.inv]

/-- Every slot of the array, and what an index beyond it reads as, meets the slot invariants. -/
theorem State.consistent_slot (h : s.consistent = true) (x : Nat) : (s.slot x).inv s.cfg = true := by
  have hall := (State.consistent_iff.mp h).2.2.1
  by_cases hx : x < s.ctx.length
  · have : s.slot x = s.ctx[x] := by simp [State.slot, hx]
    rw [this]
    exact hall _ (List.getElem_mem hx)
  · have : s.slot x = Slot.canonical s.cfg.bmax := by
      simp [State.slot, List.getElem?_eq_none (Nat.le_of_not_lt hx)]
    rw [this]
    simp [Slot.inv, Slot.canonical]

/-- Writing a slot that meets the slot invariants keeps the state consistent. -/
theorem State.consistent_setSlot (h : s.consistent = true) {sl : Slot} (hsl : sl.inv s.cfg = true) (c : Nat) :
    (s.setSlot c sl).consistent = true := by
  obtain ⟨hc, hl, hs, hz⟩ := State.consistent_iff.mp h
  refine State.consistent_iff.mpr ⟨hc, by simpa using hl, fun x hx => ?_, hz⟩
  rcases List.mem_or_eq_of_mem_set hx with hx | rfl
  · exact hs x hx
  · exact hsl

/-- An Erased slot is the canonical one (R21 item 1). -/
theorem Slot.inv_erased {cfg : Config} {sl : Slot} (h : sl.inv cfg = true) (ht : sl.tag = .erased) :
    sl = Slot.canonical cfg.bmax := by
  simpa [Slot.inv, ht] using h

/-- What R21 says of an Active slot. -/
structure ActiveSlot (cfg : Config) (sl : Slot) (row : AlgRecord) : Prop where
  row_eq : cfg.row? sl.alg = some row
  wf : row.wf = true
  b_le : row.b ≤ cfg.bmax
  fc_lt : sl.fc < row.b
  fc_eq : sl.fc = sl.tl % row.b
  pb_length : sl.pb.length = cfg.bmax
  pb_rest : sl.pb.drop row.b = zeros (cfg.bmax - row.b)
  cs_lt : sl.cs < 2 ^ row.csw

/-- The invariants of an Active slot, in a legal configuration. -/
theorem Slot.inv_active {cfg : Config} {sl : Slot} (hc : cfg.wf = true) (ht : sl.tag = .active) :
    sl.inv cfg = true ↔ ∃ row, ActiveSlot cfg sl row := by
  cases hr : cfg.row? sl.alg with
  | none =>
    simp only [Slot.inv, ht, hr]
    exact ⟨fun h => by simp at h, fun ⟨row, h⟩ => by simp [h.row_eq] at hr⟩
  | some row =>
    have hw := Config.row?_wf hc hr
    simp only [Slot.inv, ht, hr, Bool.and_eq_true, decide_eq_true_eq, beq_iff_eq]
    constructor
    · rintro ⟨⟨⟨⟨h1, h2⟩, h3⟩, h4⟩, h5⟩
      exact ⟨row, hr, hw.1, hw.2, h1, h2, h3, h4, h5⟩
    · rintro ⟨row', h⟩
      have : row' = row := Option.some.inj (h.row_eq.symm.trans hr)
      subst this
      exact ⟨⟨⟨⟨h.fc_lt, h.fc_eq⟩, h.pb_length⟩, h.pb_rest⟩, h.cs_lt⟩

/-- The Active slot behind an index that can be used. -/
theorem State.consistent_usable (h : s.consistent = true) {x : Nat} (ht : (s.slot x).tag = .active) :
    ∃ row, s.slotRow? x = some row ∧ ActiveSlot s.cfg (s.slot x) row := by
  obtain ⟨row, hr⟩ := (Slot.inv_active (State.consistent_iff.mp h).1 ht).mp (State.consistent_slot h x)
  exact ⟨row, hr.row_eq, hr⟩

end Sys2Proof.Machine
end

