-- ==== Sys2Proof/Laws/PerInstr.lean ====
section
/-! SUPPORT. One statement about each instruction as syntax: how its encoding carries it (30_encoding.md R60,
R65, R72). -/

namespace Sys2Proof.Laws.Carried

/-- A well-formed instruction is carried whole: a command by a packet whose word frames exactly the payload it
has (R65), a core transaction by a request code that is driven (R72). -/
def Statement (i : Instr) : Prop :=
  i.wf = true →
    match encode i with
    | .packet w payload => i.isCommand = true ∧ payload.length = payloadLength w
    | .transaction r => i.isCommand = false ∧ (r.creq = 1#2 ∨ r.creq = 2#2)

/-- The payload length that an assembled word frames. -/
theorem payloadLength_assembleWord (op d s r : BitVec 4) (imm : BitVec 16) :
    payloadLength (assembleWord op d s r imm) = if op = 2#4 then imm.toNat else 0 := by
  simp [payloadLength]

theorem new (c : BitVec 4) (alg : BitVec 8) : Statement (.new c alg) := fun _ =>
  ⟨rfl, by simp [payloadLength_assembleWord]⟩

theorem update (c : BitVec 4) (data : List Byte) : Statement (.update c data) := fun h =>
  ⟨rfl, by
    have hn : data.length ≤ 65535 := of_decide_eq_true h
    rw [payloadLength_assembleWord, if_pos (show (2 : BitVec 4) = 2#4 from rfl), BitVec.toNat_ofNat]
    omega⟩

theorem update1 (c : BitVec 4) (byte : Byte) : Statement (.update1 c byte) := fun _ =>
  ⟨rfl, by simp [payloadLength_assembleWord]⟩

theorem digest (c : BitVec 4) : Statement (.digest c) := fun _ =>
  ⟨rfl, by simp [payloadLength_assembleWord]⟩

theorem duplicate (d s : BitVec 4) : Statement (.duplicate d s) := fun _ =>
  ⟨rfl, by simp [payloadLength_assembleWord]⟩

theorem erase (c : BitVec 4) : Statement (.erase c) := fun _ =>
  ⟨rfl, by simp [payloadLength_assembleWord]⟩

theorem compress (a : BitVec 8) (cs : Nat) (data : List Byte) : Statement (.compress a cs data) := fun _ =>
  ⟨rfl, .inl rfl⟩

theorem finalize (a : BitVec 8) (cs : Nat) (pb : List Byte) (fc tl : Nat) :
    Statement (.finalize a cs pb fc tl) := fun _ => ⟨rfl, .inr rfl⟩

end Sys2Proof.Laws.Carried
end

