-- ==== Sys2Proof/Tests/Slice0.lean ====
section
/-! SUPPORT. Small tests, their expected values taken from spec/95_test_vectors.md (named V.. beside each) or
worked by hand from the rule named, and for every obligation that has hypotheses a theorem `witness_<Name>`
that shows a concrete state and operands meeting all of them. -/

namespace Sys2Proof.Tests

open Sys2Proof.Machine

/-! ### Well-formedness -/

theorem test_wf_update_refuses_65536_bytes : (Instr.update 0 (zeros 65536)).wf = false := by
  rw [Instr.wf, zeros, List.length_replicate]
  decide

theorem test_wf_update_accepts_65535_bytes : (Instr.update 0 (zeros 65535)).wf = true := by
  rw [Instr.wf, zeros, List.length_replicate]
  decide

theorem test_wf_finalize_refuses_fill_count_at_length : (Instr.finalize 0x7F 0 (zeros 16) 16 16).wf = false := by
  decide

theorem test_wf_finalize_accepts_fill_count_below_length :
    (Instr.finalize 0x7F 0 (zeros 16) 15 15).wf = true := by
  decide

/-! ### Decoding: V11, V12, and the port codes of 30_encoding.md R72 -/

/-- V11; the bits of NEW are op 0001, ctxD 0000, ctxS 0000, rsv 0000, imm 0000 0000 0000 0010. -/
theorem test_decode_new :
    decodePacket 0b00010000000000000000000000000010 [] = .instr (.new 0 0x02) := by
  decide

/-- V11, slot 3, TOY. -/
theorem test_decode_new_slot3 :
    decodePacket 0b00010011000000000000000001111111 [] = .instr (.new 3 0x7F) := by
  decide

/-- V11, slot 15. -/
theorem test_decode_new_slot15 : decodePacket 0x1F000002 [] = .instr (.new 15 0x02) := by decide

/-- V11: n = 65535. -/
theorem test_decode_update_longest : selectRow 0x2100FFFF = some .update ∧ payloadLength 0x2100FFFF = 65535 := by
  decide

/-- R63, format U: op 0010, ctxD 1010, n = 2. -/
theorem test_decode_update :
    decodePacket 0b00101010000000000000000000000010 [0x5A, 0xA5] = .instr (.update 10 [0x5A, 0xA5]) := by
  decide

/-- V11. -/
theorem test_decode_update_empty : decodePacket 0x20000000 [] = .instr (.update 0 []) := by decide

/-- V11, format B: op 0011, ctxD 0010, byte 0110 0001. -/
theorem test_decode_update1 :
    decodePacket 0b00110010000000000000000001100001 [] = .instr (.update1 2 0x61) := by
  decide

/-- R63, format C: op 0100, ctxD 1001. -/
theorem test_decode_digest : decodePacket 0b01001001000000000000000000000000 [] = .instr (.digest 9) := by decide

/-- V11, format D: op 0101, ctxD 0010, ctxS 0001. -/
theorem test_decode_duplicate :
    decodePacket 0b01010010000100000000000000000000 [] = .instr (.duplicate 2 1) := by
  decide

/-- V11, format C: op 0110, ctxD 0011. -/
theorem test_decode_erase : decodePacket 0b01100011000000000000000000000000 [] = .instr (.erase 3) := by decide

/-- R72: creq = 01. -/
theorem test_decode_compress :
    decodeTransaction ⟨0b01, 0x02, 7, [1, 2], 3, 4⟩ = .instr (.compress 0x02 7 [1, 2]) := by
  decide

/-- R72: creq = 10. -/
theorem test_decode_finalize :
    decodeTransaction ⟨0b10, 0x02, 7, [1, 2], 1, 4⟩ = .instr (.finalize 0x02 7 [1, 2] 1 4) := by
  decide

/-- R72: creq = 00 and creq = 11. -/
theorem test_decode_port_idle_and_reserved :
    decodeTransaction CoreRequest.idle = .reject .portIdle ∧
    decodeTransaction ⟨0b11, 0, 0, [], 0, 0⟩ = .reject .creqReserved := by
  decide

/-- V12, the words whose `op` is illegal. -/
theorem test_illegal_opcodes :
    [0x00000000#32, 0x70000000#32, 0x80000000#32, 0xF0000000#32, 0xFFFFFFFF#32].map
      (fun w => (decodePacket w [], payloadLength w)) = List.replicate 5 (.reject .illegalOpcode, 0) := by
  decide

/-- V12, the words with a nonzero bit in a must-be-zero position. -/
theorem test_illegal_reserved_bits :
    [0x40000001#32, 0x60000100#32, 0x10100002#32, 0x1001007F#32, 0x10000102#32, 0x30000161#32, 0x50010000#32,
        0x50000001#32].map
      (fun w => (decodePacket w [], payloadLength w)) = List.replicate 8 (.reject .reservedNonzero, 0) := by
  decide

/-- V12, the illegal words that frame a payload. -/
theorem test_illegal_update_frames_its_payload :
    decodePacket 0x20100002 [0, 0] = .reject .reservedNonzero ∧ payloadLength 0x20100002 = 2 ∧
    decodePacket 0x20010003 [0, 0, 0] = .reject .reservedNonzero ∧ payloadLength 0x20010003 = 3 := by
  decide

/-- No two rows of R63 overlap: their masks share the `op` bits, where their patterns differ. -/
theorem test_rows_do_not_overlap :
    opRows.Pairwise fun r r' => r.pattern &&& r.mask &&& r'.mask ≠ r'.pattern &&& r.mask &&& r'.mask := by
  decide

/-- R63 read forwards: the encodings of the words above. -/
theorem test_encode :
    encode (.new 3 0x7F) = .packet 0x1300007F [] ∧
    encode (.update 0 [0x61, 0x62, 0x63]) = .packet 0x20000003 [0x61, 0x62, 0x63] ∧
    encode (.update1 2 0x61) = .packet 0x32000061 [] ∧
    encode (.digest 0) = .packet 0x40000000 [] ∧
    encode (.duplicate 2 1) = .packet 0x52100000 [] ∧
    encode (.erase 3) = .packet 0x63000000 [] := by
  decide

/-- The table's own numbering: every row's match word decodes, and a row's illegal neighbour does not. -/
theorem test_table_words :
    decodeTableWord 32 0x10000002 = some (.new 0 0x02) ∧
    decodeTableWord 32 0x20000002 = some (.update 0 [0, 0]) ∧
    decodeTableWord 32 0x30000061 = some (.update1 0 0x61) ∧
    decodeTableWord 32 0x42000000 = some (.digest 2) ∧
    decodeTableWord 32 0x52100000 = some (.duplicate 2 1) ∧
    decodeTableWord 32 0x63000000 = some (.erase 3) ∧
    decodeTableWord 8 0b01 = some (.compress 0x7F 0 (zeros 16)) ∧
    decodeTableWord 8 0b10 = some (.finalize 0x7F 0 (zeros 16) 0 0) ∧
    decodeTableWord 32 0x40000001 = none ∧ decodeTableWord 8 0b11 = none := by
  decide

/-- V13: the refused UPDATE's payload is not taken as part of a command word. -/
theorem test_framing :
    framePacket .be [0x20, 0x00, 0x00, 0x03, 0x61, 0x62, 0x63, 0x10, 0x00, 0x00, 0x02] =
      .packet 0x20000003 [0x61, 0x62, 0x63] [0x10, 0x00, 0x00, 0x02] := by
  decide

/-- R44, D22: the other serialisation of the same word. -/
theorem test_framing_little_endian :
    framePacket .le [0x03, 0x00, 0x00, 0x20, 0x61, 0x62, 0x63] = .packet 0x20000003 [0x61, 0x62, 0x63] [] := by
  decide

/-- R70, R71. -/
theorem test_assembler :
    asmText (.update1 2 0x61) = some "UPDATE1 2, 0x61" ∧
    asmText (.duplicate 2 1) = some "DUPLICATE 2, 1" ∧
    (Pseudo.hash 0 0x7F [0x61]).expand = [.new 0 0x7F, .update 0 [0x61], .digest 0, .erase 0] ∧
    (Pseudo.updatel 1 []).expand = [] := by
  decide

/-! ### States of a small machine -/

/-- Records of every policy: TOY, an MD2 and a sponge geometry of 95_test_vectors.md V44 and V45, and one-byte
blocks. -/
def md2Row : AlgRecord :=
  { tag := 9, name := "MD2", b := 16, dl := 16, csw := 512, core := .published 9, pol := md2Policy }

def spongeRow : AlgRecord :=
  { tag := 10, name := "sponge", b := 136, dl := 32, csw := 1600, core := .published 10, pol := spongePolicy 0x06 }

def byteRow : AlgRecord :=
  { tag := 11, name := "one byte", b := 1, dl := 1, csw := 8, core := .published 11, pol := spongePolicy 0x01 }

/-- Four slots and two algorithms: TOY, and one-byte blocks. -/
def smallConfig : Config := { nctx := 4, atab := [toyRow, byteRow], wordOrder := .be }

/-- The small machine after reset. -/
def fresh : State := State.initial smallConfig

/-- Slot 0 of V50 after row 2. -/
def v50 : Slot :=
  { tag := .active, alg := 0x7F, fc := 1, tl := 17, cs := 0x3F871933
    pb := [0xcc, 2, 3, 4, 5, 6, 7, 8, 9, 10, 11, 12, 13, 14, 0xaa, 0xbb] }

/-- The same logical state as `v50`, with other stale bytes. -/
def v50Stale : Slot := { v50 with pb := 0xcc :: zeros 15 }

/-- V52: fifteen zero bytes pending. -/
def nearlyFull : Slot :=
  { tag := .active, alg := 0x7F, fc := 15, tl := 15, cs := 5381, pb := zeros 16 }

/-- A slot whose message is longer than TOY's declared maximum (V46: `TL = 2^61`). -/
def overlong : Slot :=
  { tag := .active, alg := 0x7F, fc := 0, tl := 2 ^ 61, cs := 5381, pb := zeros 16 }

/-- A slot of the algorithm with one-byte blocks. -/
def byteSlot : Slot := { tag := .active, alg := 11, fc := 0, tl := 3, cs := 5, pb := zeros 16 }

/-- Slot 0 as V50, slot 1 as V52, slot 2 Erased, slot 3 overlong. -/
def busy : State :=
  { fresh with ctx := [v50, nearlyFull, Slot.canonical 16, overlong] }

/-- Two slots of equal fields, a slot of one-byte blocks, an Erased slot. -/
def twins : State := { fresh with ctx := [v50, v50, byteSlot, Slot.canonical 16] }

/-- Slot 0 of the logical state of V50, with other stale bytes. -/
def stale : State := { fresh with ctx := [v50Stale, Slot.canonical 16, Slot.canonical 16, Slot.canonical 16] }

/-- V65: the fault latch is set, slot 0 is Active. -/
def faulted : State := { busy with fault := true }

/-- `s` with bytes delivered. -/
def given (s : State) (bytes : List Byte) : State := { s with input := bytes }

/-- The state a step or a command comes to, if it does. -/
def after : Host.Outcome State Fault Refusal → Option State
  | .next t => some t
  | .fault _ => none
  | .refused _ => none

/-- The response that a command adds last. -/
def reply (o : Host.Outcome State Fault Refusal) : Option Response := (after o).bind fun t => t.out.getLast?

/-- Slot `c` after a command. -/
def slotAfter (o : Host.Outcome State Fault Refusal) (c : Nat) : Option Slot := (after o).map fun t => t.slot c

/-! ### One command each (95_test_vectors.md) -/

/-- R141, R132: a TOY Hasher starts from `IV` = 5381 = 0x00001505 (V50 row 0). -/
theorem test_new :
    slotAfter (exec (.new 2 0x7F) busy) 2 =
      some { tag := .active, alg := 0x7F, pb := zeros 16, fc := 0, tl := 0, cs := 0x1505 } := by
  decide

/-- V60, V64: the refusals of NEW and their priority. -/
theorem test_new_refusals :
    reply (exec (.new 0 0x7F) busy) = some ⟨.eBusy, []⟩ ∧
    reply (exec (.new 2 0xFF) busy) = some ⟨.eBadAlg, []⟩ ∧
    reply (exec (.new 2 0x00) busy) = some ⟨.eBadAlg, []⟩ ∧
    reply (exec (.new 0 0xFF) busy) = some ⟨.eBadAlg, []⟩ ∧
    reply (exec (.new 4 0xFF) busy) = some ⟨.eBadCtx, []⟩ := by
  decide

/-- V50 row 4: fifteen bytes complete the block behind one pending byte. -/
theorem test_update_fills :
    (slotAfter (exec (.update 0
        [0x20, 0x21, 0x22, 0x23, 0x24, 0x25, 0x26, 0x27, 0x28, 0x29, 0x2a, 0x2b, 0x2c, 0x2d, 0x2e]) busy) 0).map
      (fun sl => (sl.fc, sl.tl, sl.cs)) = some (0, 32, 0x015381A8) := by
  decide

/-- V53: straddling a block boundary by one byte. -/
theorem test_update_straddles :
    slotAfter (exec (.update 1 [1, 2]) busy) 1 =
      some { tag := .active, alg := 0x7F, fc := 1, tl := 17, cs := 0xBDCB7F06, pb := 2 :: (zeros 14 ++ [1]) } := by
  decide

/-- V52: the byte that completes a block. -/
theorem test_update1 :
    (slotAfter (exec (.update1 1 0xff) busy) 1).map (fun sl => (sl.fc, sl.tl, sl.cs)) =
      some (0, 16, 0xBDCB8004) := by
  decide

/-- R84, R82: with one-byte blocks the byte goes straight to the core; `PB` is not written. -/
theorem test_update1_one_byte_blocks :
    (slotAfter (exec (.update1 2 0xff) twins) 2).map (fun sl => (sl.fc, sl.tl, sl.pb)) =
      some (0, 4, zeros 16) := by
  decide

/-- V61: the digest of V50's slot after row 2, and the slot untouched. -/
theorem test_digest :
    reply (exec (.digest 0) busy) = some ⟨.ok, [0x54, 0x12, 0x2f, 0x87]⟩ ∧
    slotAfter (exec (.digest 0) busy) 0 = some v50 := by
  decide

/-- V46: too long, and V63: an Erased slot. -/
theorem test_digest_refusals :
    reply (exec (.digest 3) busy) = some ⟨.eMsgTooLong, []⟩ ∧
    reply (exec (.digest 2) busy) = some ⟨.eErased, []⟩ := by
  decide

/-- V61: every field is copied, stale bytes included. -/
theorem test_duplicate : slotAfter (exec (.duplicate 2 0) busy) 2 = some v50 := by decide

/-- V64: source before destination. -/
theorem test_duplicate_refusals :
    reply (exec (.duplicate 0 2) busy) = some ⟨.eErased, []⟩ ∧
    reply (exec (.duplicate 0 0) busy) = some ⟨.eBusy, []⟩ ∧
    reply (exec (.duplicate 2 2) busy) = some ⟨.eErased, []⟩ ∧
    reply (exec (.duplicate 5 0) busy) = some ⟨.eBadCtx, []⟩ ∧
    reply (exec (.duplicate 0 5) busy) = some ⟨.eBadCtx, []⟩ := by
  decide

/-- V62: all fields zeroed. -/
theorem test_erase :
    slotAfter (exec (.erase 0) busy) 0 =
      some { tag := .erased, alg := 0, fc := 0, tl := 0, cs := 0, pb := zeros 16 } := by
  decide

/-- V63, V65. -/
theorem test_erase_refusals :
    reply (exec (.erase 2) busy) = some ⟨.eErased, []⟩ ∧ reply (exec (.erase 0) faulted) = some ⟨.fInvariant, []⟩ := by
  decide

/-- V10, V66: one block of zeros; no data. -/
theorem test_compress :
    (after (exec (.compress 0x7F 5381 (zeros 16)) fresh)).map (·.coreReply) = some (.state 0xBDCB7F05) ∧
    (after (exec (.compress 0x7F 99 []) fresh)).map (·.coreReply) = some (.state 99) := by
  decide

/-- V66: 15 and 17 bytes. -/
theorem test_compress_violation :
    (after (exec (.compress 0x7F 0 (zeros 15)) fresh)).map (fun t => (t.fault, t.coreReply)) =
      some (true, .invariant) ∧
    (after (exec (.compress 0x7F 0 (zeros 17)) fresh)).map (·.fault) = some true := by
  decide

/-- V15, `n = 8`: the spill path; the stale bytes 0xee are not read (V30). -/
theorem test_finalize :
    (after (exec (.finalize 0x7F 5381 ([1, 2, 3, 4, 5, 6, 7, 8] ++ rep 0xee 8) 8 8) fresh)).map (·.coreReply) =
      some (.digest [0x2e, 0xa2, 0x88, 0x69]) := by
  decide

/-- V46's bound for an 8-byte length field. -/
theorem test_finalize_too_long :
    (after (exec (.finalize 0x7F 5381 (zeros 16) 0 (2 ^ 61)) fresh)).map (·.coreReply) = some .tooLong := by
  decide

/-! ### The step -/

/-- P5 lines 4 and 5: the illegal UPDATE's payload is dropped, and the next packet is read after it. -/
theorem test_step_illegal :
    (after (step (given fresh [0x20, 0x10, 0x00, 0x02, 0x61, 0x62, 0x14]))).map (fun t => (t.out, t.input)) =
      some ([⟨.eIllegal, []⟩], [0x14]) := by
  decide

/-- V65: check 1 precedes check 2. -/
theorem test_step_faulted :
    reply (step (given faulted [0, 0, 0, 0])) = some ⟨.fInvariant, []⟩ ∧
    (after (step (given faulted [0x20, 0, 0, 2, 0x61, 0x62]))).map (·.input) = some [] := by
  decide

/-- V65: reset clears the latch and erases slot 0; R196: the half-delivered packet is abandoned. -/
theorem test_step_reset :
    (after (step { given faulted [0x20, 0, 0, 2, 0x61] with rst := true })).map
      (fun t => (t.fault, t.slot 0, t.rst, t.input, t.out)) = some (false, Slot.canonical 16, false, [], []) := by
  decide

/-- The first step after reset runs the word placed there, for a command and for a core transaction. -/
theorem test_withFetchWord :
    reply (step (State.reset.withFetchWord 32 0x1000007F)) = some ⟨.ok, []⟩ ∧
    reply (step (State.reset.withFetchWord 32 0x20000002)) = some ⟨.eErased, []⟩ ∧
    (after (step (State.reset.withFetchWord 8 0b01))).map (·.coreReply) = some (.state 0) := by
  decide

/-! ### Padding (95_test_vectors.md V30 to V45) -/

/-- The finalize input of V30 to V45. -/
def padInput (b f : Nat) : List Byte := rep 0xaa f ++ rep 0xee (b - f)

/-- V31, V32 (MD5), V35 (SHA-1), V41 (Whirlpool): the fit path. -/
theorem test_pad_fit :
    (defaultConfig.row? 0x02).map (fun r => fitBlock r (padInput 64 1) 1 1) =
      some ([0xaa, 0x80] ++ zeros 54 ++ [0x08] ++ zeros 7) ∧
    (defaultConfig.row? 0x02).map (fun r => fitBlock r (padInput 64 55) 55 55) =
      some (rep 0xaa 55 ++ [0x80, 0xb8, 0x01] ++ zeros 6) ∧
    (defaultConfig.row? 0x03).map (fun r => fitBlock r (padInput 64 55) 55 55) =
      some (rep 0xaa 55 ++ [0x80] ++ zeros 6 ++ [0x01, 0xb8]) ∧
    (defaultConfig.row? 0x08).map (fun r => fitBlock r (padInput 64 31) 31 31) =
      some (rep 0xaa 31 ++ [0x80] ++ zeros 31 ++ [0xf8]) := by
  decide

/-- V33 (MD5), V40 (SHA-512), V42 (Whirlpool): the spill path. -/
theorem test_pad_spill :
    (defaultConfig.row? 0x02).map (fun r => (markedBlock r (padInput 64 56) 56, lengthBlock r 56)) =
      some (rep 0xaa 56 ++ [0x80] ++ zeros 7, zeros 56 ++ [0xc0, 0x01] ++ zeros 6) ∧
    (defaultConfig.row? 0x07).map (fun r => (markedBlock r (padInput 128 127) 127, lengthBlock r 127)) =
      some (rep 0xaa 127 ++ [0x80], zeros 126 ++ [0x03, 0xf8]) ∧
    (defaultConfig.row? 0x08).map (fun r => (markedBlock r (padInput 64 32) 32, lengthBlock r 32)) =
      some (rep 0xaa 32 ++ [0x80] ++ zeros 31, zeros 62 ++ [0x01, 0x00]) := by
  decide

/-- V32, V33, V38 to V42: which fill counts fit. -/
theorem test_fits :
    (defaultConfig.row? 0x02).map (fun r => (fits r 55, fits r 56)) = some (true, false) ∧
    (defaultConfig.row? 0x07).map (fun r => (fits r 111, fits r 112)) = some (true, false) ∧
    (defaultConfig.row? 0x08).map (fun r => (fits r 31, fits r 32)) = some (true, false) := by
  decide

/-- V44. -/
theorem test_pad_md2 :
    md2Block md2Row (padInput 16 0) 0 = rep 0x10 16 ∧ md2Block md2Row (padInput 16 1) 1 = 0xaa :: rep 0x0f 15 ∧
    md2Block md2Row (padInput 16 15) 15 = rep 0xaa 15 ++ [0x01] := by
  decide

/-- V45: the last case has the domain byte and the marker in one byte. -/
theorem test_pad_sponge :
    spongeBlock spongeRow (padInput 136 1) 1 = [0xaa, 0x06] ++ zeros 133 ++ [0x80] ∧
    spongeBlock spongeRow (padInput 136 134) 134 = rep 0xaa 134 ++ [0x06, 0x80] ∧
    spongeBlock spongeRow (padInput 136 135) 135 = rep 0xaa 135 ++ [0x86] := by
  decide

/-- V46: the largest permitted length, and the first that is refused; MD2 refuses none. -/
theorem test_too_long :
    (defaultConfig.row? 0x03).map (fun r => (tooLong r (2 ^ 61 - 1), tooLong r (2 ^ 61))) = some (false, true) ∧
    (defaultConfig.row? 0x07).map (fun r => (tooLong r (2 ^ 125 - 1), tooLong r (2 ^ 125))) = some (false, true) ∧
    tooLong md2Row (2 ^ 200) = false := by
  decide

/-! ### The default table (42_core_interface.md R131) -/

/-- Thirteen records, tags distinct, all legal; `BMAX` = 136. -/
theorem test_default_table :
    defaultTable.length = 13 ∧ (defaultTable.map (·.tag)).Nodup ∧ defaultConfig.wf = true ∧
    defaultConfig.bmax = 136 := by
  decide

/-! ### Witnesses: the hypotheses of each obligation are met together

Obligations without hypotheses have none here. Where a statement has several clauses there is a witness for each,
at the ends of its range. -/

/-- A slot at the largest length TOY permits, `8*TL = 2^64 - 8` (V46). -/
def longest : Slot :=
  { tag := .active, alg := 0x7F, fc := 15, tl := 2 ^ 61 - 1, cs := 5381, pb := zeros 16 }

/-- Slot 0 at the largest permitted length, slot 1 just above it. -/
def edges : State := { fresh with ctx := [longest, overlong, Slot.canonical 16, Slot.canonical 16] }

/-- Slot 0 Active under a tag the table does not define: no run reaches it. -/
def unlisted : State :=
  { fresh with ctx := [{ v50 with alg := 0x55 }, Slot.canonical 16, Slot.canonical 16, Slot.canonical 16] }

/-- An MDL record with a little-endian length field. -/
def leRow : AlgRecord :=
  { tag := 2, name := "MD5", b := 64, dl := 16, csw := 128, core := .published 2, pol := mdlPolicy 8 .le }

theorem fresh_inv : fresh.inv = true := by decide

theorem busy_inv : busy.inv = true := by decide

theorem twins_inv : twins.inv = true := by decide

theorem stale_inv : stale.inv = true := by decide

theorem edges_inv : edges.inv = true := by decide

theorem faulted_inv : faulted.inv = true := by decide

/-- A packet for slot 0 and the bytes of the next one. -/
def updatePacket : List Byte := [0x20, 0x00, 0x00, 0x02, 0x61, 0x62, 0x40]

theorem witness_DecodeEncodeRoundTrip :
    (Instr.new 15 0xFF).wf = true ∧ (Instr.update 15 [1]).wf = true ∧ (Instr.update1 15 0xFF).wf = true ∧
    (Instr.digest 15).wf = true ∧ (Instr.duplicate 15 14).wf = true ∧ (Instr.erase 15).wf = true ∧
    (Instr.compress 0xFF 7 [1]).wf = true ∧ (Instr.finalize 0xFF 7 [1, 2] 1 5).wf = true := by
  decide

theorem witness_DecodedPacketReencodes :
    decodePacket 0x2F000002 [0x61, 0x62] = .instr (.update 15 [0x61, 0x62]) ∧
    decodePacket 0x5F100000 [] = .instr (.duplicate 15 1) := by
  decide

theorem witness_EncodedBytesFrameBack :
    (Instr.update 15 [0x61, 0x62]).wf = true ∧ (Instr.update 15 [0x61, 0x62]).isCommand = true := by
  decide

theorem witness_ListedWordsDecode : (zeros 65535).length = 65535 := by rw [zeros, List.length_replicate]

theorem witness_EveryWordMatchesOneRowOrIsIllegal :
    [0x61#8, 0x62#8, 0x63#8].length = payloadLength 0x20000003 ∧ ([] : List Byte).length = payloadLength 0x20000000 ∧
    ([] : List Byte).length = payloadLength 0x60000000 := by
  decide

theorem witness_StepRunsDecodedPacket :
    TakesPacket (given busy updatePacket) ∧
    framePacket (given busy updatePacket).cfg.wordOrder (given busy updatePacket).input =
      .packet 0x20000002 [0x61, 0x62] [0x40] ∧
    decodePacket 0x20000002 [0x61, 0x62] = .instr (.update 0 [0x61, 0x62]) ∧
    (given busy updatePacket).consistent = true := by
  decide

theorem witness_StepRunsEncodedCommand :
    TakesPacket (given busy updatePacket) ∧ (Instr.update 0 [0x61, 0x62]).wf = true ∧
    (Instr.update 0 [0x61, 0x62]).isCommand = true ∧
    (given busy updatePacket).input =
      (encode (.update 0 [0x61, 0x62])).streamBytes (given busy updatePacket).cfg.wordOrder ++ [0x40] ∧
    (given busy updatePacket).consistent = true := by
  decide

theorem witness_StepServesCoreTransaction :
    ({ busy with coreReq := ⟨0b01, 0x7F, 5381, zeros 16, 0, 0⟩ } : State).rst = false ∧
    decodeTransaction ⟨0b01, 0x7F, 5381, zeros 16, 0, 0⟩ = .instr (.compress 0x7F 5381 (zeros 16)) ∧
    decodeTransaction ⟨0b10, 0x7F, 5381, zeros 16, 3, 19⟩ = .instr (.finalize 0x7F 5381 (zeros 16) 3 19) := by
  decide

theorem witness_StepWaitsForAWholePacket :
    TakesPacket fresh ∧ fresh.input.length < 4 ∧
    TakesPacket (given fresh [0x20, 0x00, 0x00]) ∧ (given fresh [0x20, 0x00, 0x00]).input.length < 4 ∧
    TakesPacket (given fresh [0x20, 0x00, 0x00, 0x02, 0x61]) ∧
    [0x61#8].length < payloadLength (bytesWord (given fresh []).cfg.wordOrder 0x20 0x00 0x00 0x02) ∧
    TakesPacket (given fresh [0x20, 0x00, 0x00, 0x02, 0x61, 0x62]) ∧
    payloadLength (bytesWord (given fresh []).cfg.wordOrder 0x20 0x00 0x00 0x02) ≤ [0x61#8, 0x62#8].length ∧
    payloadLength (bytesWord (given fresh []).cfg.wordOrder 0x40 0x00 0x00 0x00) ≤ ([] : List Byte).length := by
  decide

theorem witness_PacketIsConsumedWhole :
    TakesPacket (given busy updatePacket) ∧
    framePacket (given busy updatePacket).cfg.wordOrder (given busy updatePacket).input =
      .packet 0x20000002 [0x61, 0x62] [0x40] ∧
    (after (step (given busy updatePacket))).isSome = true := by
  decide

theorem witness_OneResponsePerPacket :
    TakesPacket (given busy [0x40, 0, 0, 0]) ∧
    framePacket (given busy [0x40, 0, 0, 0]).cfg.wordOrder (given busy [0x40, 0, 0, 0]).input =
      .packet 0x40000000 [] [] ∧
    (reply (step (given busy [0x40, 0, 0, 0]))).map (·.status) = some .ok ∧
    (reply (step (given busy [0x43, 0, 0, 0]))).map (·.status) = some .eMsgTooLong ∧
    (reply (step (given busy updatePacket))).map (·.status) = some .ok := by
  decide

theorem witness_IllegalWordIsRefused :
    TakesPacket (given busy [0x20, 0x10, 0x00, 0x01, 0x61]) ∧
    (given busy [0x20, 0x10, 0x00, 0x01, 0x61]).fault = false ∧
    framePacket (given busy []).cfg.wordOrder (given busy [0x20, 0x10, 0x00, 0x01, 0x61]).input =
      .packet 0x20100001 [0x61] [] ∧
    (∀ r ∈ opRows, 0x20100001 &&& r.mask ≠ r.pattern) := by
  decide

theorem witness_OverlapAndReservedRequestHaveNoStep :
    ({ busy with phase := .uBulk } : State).rst = false ∧
    ({ busy with phase := .uBulk } : State).coreReq = CoreRequest.idle ∧
    ({ busy with phase := .uBulk } : State).phase ≠ .idle ∧
    ({ busy with coreReq := ⟨0b11, 0, 0, [], 0, 0⟩ } : State).rst = false ∧
    ({ busy with coreReq := ⟨0b11, 0, 0, [], 0, 0⟩ } : State).coreReq.creq = 3#2 := by
  decide

/-- With a packet half delivered. -/
theorem witness_ResetInputErasesEverything :
    ({ given faulted [0x20, 0, 0, 2, 0x61] with rst := true } : State).rst = true := by
  decide

theorem witness_StepKeepsTheInvariants :
    (given busy updatePacket).inv = true ∧ (after (step (given busy updatePacket))).isSome = true ∧
    ({ busy with rst := true } : State).inv = true ∧
    (after (step { busy with rst := true })).isSome = true ∧
    ({ busy with coreReq := ⟨0b01, 0x7F, 5381, zeros 15, 0, 0⟩ } : State).inv = true ∧
    (after (step { busy with coreReq := ⟨0b01, 0x7F, 5381, zeros 15, 0, 0⟩ })).isSome = true := by
  decide

/-- At a command boundary, and in the state that has just accepted a packet. -/
theorem witness_EveryCommandAnswers :
    busy.consistent = true ∧ (busy.accept [0x40]).consistent = true ∧ (Instr.update1 0 0x61).isCommand = true := by
  decide

/-- A legal word and an illegal one, and the faulted engine. -/
theorem witness_StepAnswersEveryPacket :
    (given busy updatePacket).inv = true ∧ TakesPacket (given busy updatePacket) ∧
    framePacket (given busy []).cfg.wordOrder (given busy updatePacket).input =
      .packet 0x20000002 [0x61, 0x62] [0x40] ∧
    (given busy [0, 0, 0, 0]).inv = true ∧ TakesPacket (given busy [0, 0, 0, 0]) ∧
    framePacket (given busy []).cfg.wordOrder (given busy [0, 0, 0, 0]).input = .packet 0x00000000 [] [] ∧
    (given faulted updatePacket).inv = true ∧ TakesPacket (given faulted updatePacket) := by
  decide

theorem witness_NoCommandViolatesTheBlockContract :
    busy.consistent = true ∧ busy.fault = false ∧ (Instr.digest 1).isCommand = true ∧
    (after (exec (.digest 1) busy)).isSome = true ∧
    (Instr.update 0 [1, 2]).isCommand = true ∧ (after (exec (.update 0 [1, 2]) busy)).isSome = true := by
  decide

theorem witness_ParametersNeverChange :
    (after (step (given busy updatePacket))).isSome = true ∧ (after (step { busy with rst := true })).isSome = true := by
  decide

theorem witness_FaultLatchRefusesEveryPacket :
    TakesPacket (given faulted updatePacket) ∧ (given faulted updatePacket).fault = true ∧
    framePacket (given faulted []).cfg.wordOrder (given faulted updatePacket).input =
      .packet 0x20000002 [0x61, 0x62] [0x40] := by
  decide

theorem witness_OnlyResetClearsFault :
    (given faulted updatePacket).fault = true ∧ (given faulted updatePacket).rst = false ∧
    (after (step (given faulted updatePacket))).isSome = true := by
  decide

theorem witness_UsageErrorsChangeNothing :
    busy.consistent = true ∧ (Instr.digest 3).isCommand = true ∧
    (after (exec (.digest 3) busy)).map (·.out) = some (busy.out ++ [⟨.eMsgTooLong, []⟩]) ∧
    Status.eMsgTooLong.isUsageError = true ∧
    (after (exec (.erase 2) busy)).map (·.out) = some (busy.out ++ [⟨.eErased, []⟩]) ∧
    Status.eErased.isUsageError = true := by
  decide

theorem witness_ReservedCodesAreNeverReturned :
    (after (step (given busy updatePacket))).map (·.out) = some [⟨.ok, []⟩] := by
  decide

theorem witness_NewCreatesAFreshHasher :
    busy.consistent = true ∧ busy.fault = false ∧ (2 : BitVec 4).toNat < busy.cfg.nctx ∧
    busy.cfg.row? 0x7F = some toyRow ∧ (busy.slot (2 : BitVec 4).toNat).tag = .erased ∧
    (3 : BitVec 4).toNat < twins.cfg.nctx ∧ (twins.slot (3 : BitVec 4).toNat).tag = .erased := by
  decide

/-- One state for each branch: faulted, an index just beyond the slots, an undefined tag, an Active slot. -/
theorem witness_NewRefusalsInOrder :
    faulted.fault = true ∧
    busy.fault = false ∧ busy.cfg.nctx ≤ (4 : BitVec 4).toNat ∧
    ¬ busy.cfg.nctx ≤ (3 : BitVec 4).toNat ∧ busy.cfg.row? 0 = none ∧
    busy.cfg.row? 0x7F ≠ none ∧ (busy.slot (3 : BitVec 4).toNat).tag = .active := by
  decide

theorem witness_UseRefusalsInOrder :
    faulted.fault = true ∧ busy.fault = false ∧ busy.cfg.nctx ≤ (4 : BitVec 4).toNat ∧
    ¬ busy.cfg.nctx ≤ (2 : BitVec 4).toNat ∧ (busy.slot (2 : BitVec 4).toNat).tag = .erased := by
  decide

theorem witness_DuplicateCopiesTheHasher :
    busy.consistent = true ∧ busy.fault = false ∧ (2 : BitVec 4).toNat < busy.cfg.nctx ∧
    (0 : BitVec 4).toNat < busy.cfg.nctx ∧ (busy.slot (0 : BitVec 4).toNat).tag = .active ∧
    (busy.slot (2 : BitVec 4).toNat).tag = .erased := by
  decide

theorem witness_DuplicateRefusalsInOrder :
    faulted.fault = true ∧
    busy.fault = false ∧ (busy.cfg.nctx ≤ (4 : BitVec 4).toNat ∨ busy.cfg.nctx ≤ (0 : BitVec 4).toNat) ∧
    ¬ (busy.cfg.nctx ≤ (0 : BitVec 4).toNat ∨ busy.cfg.nctx ≤ (2 : BitVec 4).toNat) ∧
    (busy.slot (2 : BitVec 4).toNat).tag = .erased ∧
    (busy.slot (0 : BitVec 4).toNat).tag ≠ .erased ∧ (busy.slot (1 : BitVec 4).toNat).tag = .active := by
  decide

theorem witness_EraseZeroesTheSlot : busy.consistent = true ∧ Usable busy 0 ∧ Usable busy 3 := by decide

theorem witness_EraseThenUseFails :
    busy.fault = false ∧ (2 : BitVec 4).toNat < busy.cfg.nctx ∧ (0 : BitVec 4).toNat < busy.cfg.nctx ∧
    (busy.slot (2 : BitVec 4).toNat).tag = .erased ∧
    (slotAfter (exec (.new 2 0x7F) busy) 2).map (·.tag) = some .active ∧
    (slotAfter (exec (.duplicate 2 0) busy) 2).map (·.tag) = some .active := by
  decide

theorem witness_LifecycleTransitions :
    (busy.slot 0).tag = .active ∧ (slotAfter (exec (.erase 0) busy) 0).map (·.tag) = some .erased ∧
    (busy.slot 2).tag = .erased ∧ (slotAfter (exec (.new 2 0x7F) busy) 2).map (·.tag) = some .active := by
  decide

theorem witness_AlgorithmFixedWhileActive :
    (busy.slot 0).tag = .active ∧ (slotAfter (exec (.update1 0 1) busy) 0).map (·.tag) = some .active := by
  decide

theorem witness_TotalLengthNeverDecreases :
    (busy.slot 1).tag = .active ∧ (slotAfter (exec (.update1 1 1) busy) 1).map (·.tag) = some .active := by
  decide

theorem witness_SlotIsolation :
    (after (exec (.update 0 [1]) busy)).isSome = true ∧ writtenSlot (.update 0 [1]) ≠ some 1 ∧
    (after (exec (.digest 0) busy)).isSome = true ∧ writtenSlot (.digest 0) ≠ some 0 := by
  decide

theorem witness_CommandsOnOneSlotLeaveTheOthers :
    (after (execAll ([SlotCommand.update [1], .digest, .duplicate, .erase, .new 0x7F].map (SlotCommand.on 0))
      busy)).isSome = true ∧
    1 ≠ (0 : BitVec 4).toNat := by
  decide

theorem witness_EqualSlotsBehaveAlike :
    twins.consistent = true ∧ (0 : BitVec 4).toNat < twins.cfg.nctx ∧ (1 : BitVec 4).toNat < twins.cfg.nctx ∧
    twins.slot (0 : BitVec 4).toNat = twins.slot (1 : BitVec 4).toNat := by
  decide

theorem witness_UpdateClosedForm :
    busy.consistent = true ∧ Usable busy 0 ∧ busy.slotRow? (0 : BitVec 4).toNat = some toyRow ∧ Usable busy 1 ∧
    busy.slotRow? (1 : BitVec 4).toNat = some toyRow := by
  decide

/-- The block becomes full (slot 1 of `busy`), it does not (slot 0), and one-byte blocks (slot 2 of `twins`). -/
theorem witness_Update1AbsorbsOneByte :
    busy.consistent = true ∧ Usable busy 1 ∧ busy.slotRow? (1 : BitVec 4).toNat = some toyRow ∧
    (busy.slot 1).fc + 1 = toyRow.b ∧ Usable busy 0 ∧ busy.slotRow? (0 : BitVec 4).toNat = some toyRow ∧
    (busy.slot 0).fc + 1 ≠ toyRow.b ∧
    twins.consistent = true ∧ Usable twins 2 ∧ twins.slotRow? (2 : BitVec 4).toNat = some byteRow ∧ byteRow.b = 1 := by
  decide

/-- The five cases of R83 at the ends of their ranges: slot 0 has one byte pending, slot 3 none. -/
theorem witness_UpdateCornerCases :
    busy.consistent = true ∧ Usable busy 0 ∧ busy.slotRow? (0 : BitVec 4).toNat = some toyRow ∧
    Usable busy 3 ∧ busy.slotRow? (3 : BitVec 4).toNat = some toyRow ∧
    (after (exec (.update 0 []) busy)).isSome = true ∧
    0 < (busy.slot 0).fc ∧ (busy.slot 0).fc + (zeros 14).length < toyRow.b ∧
    (after (exec (.update 0 (zeros 14)) busy)).isSome = true ∧
    (busy.slot 0).fc + (zeros 15).length = toyRow.b ∧
    (after (exec (.update 0 (zeros 15)) busy)).isSome = true ∧
    (busy.slot 3).fc = 0 ∧ 0 < (zeros 16).length ∧ (zeros 16).length % toyRow.b = 0 ∧
    (after (exec (.update 3 (zeros 16)) busy)).isSome = true ∧
    (zeros 15).length < toyRow.b ∧ (after (exec (.update 3 (zeros 15)) busy)).isSome = true := by
  decide

theorem witness_ChunkingInvariance : busy.consistent = true ∧ Usable busy 0 := by decide

/-- No data has no piece, one byte has the piece number 0. -/
theorem witness_UpdateLIsOneUnboundedUpdate :
    busy.consistent = true ∧ Usable busy 1 ∧ (Pseudo.updatel 1 []).expand = [] ∧
    0 < (Pseudo.updatel 1 [0x61]).expand.length ∧ Instr.update 1 [0x61] ∈ (Pseudo.updatel 1 [0x61]).expand := by
  decide

/-- A short message, and the longest permitted one. -/
theorem witness_DigestAnswersThePaddedHash :
    busy.consistent = true ∧ Usable busy 0 ∧ busy.slotRow? (0 : BitVec 4).toNat = some toyRow ∧
    tooLong toyRow (busy.slot (0 : BitVec 4).toNat).tl = false ∧
    edges.consistent = true ∧ Usable edges 0 ∧ edges.slotRow? (0 : BitVec 4).toNat = some toyRow ∧
    tooLong toyRow (edges.slot (0 : BitVec 4).toNat).tl = false := by
  decide

theorem witness_DigestIsTheHashOfTheMessage :
    busy.consistent = true ∧ busy.fault = false ∧ (2 : BitVec 4).toNat < busy.cfg.nctx ∧
    busy.cfg.row? 0x7F = some toyRow ∧ (busy.slot (2 : BitVec 4).toNat).tag = .erased ∧
    tooLong toyRow (messageOf [.bytes [1, 2], .byte 3, .bytes []]).length = false := by
  decide

theorem witness_HashIsOneShotAndLeavesTheSlotErased :
    busy.consistent = true ∧ busy.fault = false ∧ (2 : BitVec 4).toNat < busy.cfg.nctx ∧
    busy.cfg.row? 0x7F = some toyRow ∧ (busy.slot (2 : BitVec 4).toNat).tag = .erased ∧
    tooLong toyRow ([] : List Byte).length = false ∧ tooLong toyRow [0x61#8].length = false := by
  decide

/-- DIGEST that answers, that is refused, and of too long a message. -/
theorem witness_DigestChangesNoSlot :
    (after (exec (.digest 0) busy)).isSome = true ∧ (after (exec (.digest 2) busy)).isSome = true ∧
    (after (exec (.digest 3) busy)).isSome = true := by
  decide

theorem witness_DigestIsInvisibleToLaterCommands :
    busy.consistent = true ∧ (Instr.digest 0).isCommand = true ∧ (after (exec (.digest 0) busy)).isSome = true ∧
    (Instr.update1 0 7).isCommand = true ∧ (after (exec (.update1 0 7) busy)).isSome = true := by
  decide

/-- The two slots have the same logical state and differ in their stale bytes. -/
theorem witness_DigestIgnoresStaleBytes :
    busy.consistent = true ∧ stale.consistent = true ∧ busy.cfg = stale.cfg ∧ Usable busy 0 ∧ Usable stale 0 ∧
    SameLogical (busy.slot (0 : BitVec 4).toNat) (stale.slot (0 : BitVec 4).toNat) ∧
    (busy.slot (0 : BitVec 4).toNat).pb ≠ (stale.slot (0 : BitVec 4).toNat).pb := by
  refine ⟨by decide, by decide, by decide, by decide, by decide, ⟨?_, ?_, ?_, ?_, ?_, ?_⟩, by decide⟩ <;> decide

/-- The least length that is too long, `TL = 2^61` (V46). -/
theorem witness_TooLongStaysTooLong :
    edges.consistent = true ∧ Usable edges 1 ∧ edges.slotRow? (1 : BitVec 4).toNat = some toyRow ∧
    tooLong toyRow (edges.slot (1 : BitVec 4).toNat).tl = true := by
  decide

/-- The last fill count that fits, the first that does not, and the last of all. -/
theorem witness_MdlPaddingTakesOneOrTwoBlocks :
    toyRow.wf = true ∧ toyRow.pol.kind = .mdl ∧ 7 < toyRow.b ∧ 7 + 1 + toyRow.pol.lfw ≤ toyRow.b ∧
    (7 + 1 + 0 + toyRow.pol.lfw) % toyRow.b = 0 ∧ 8 < toyRow.b ∧ ¬ 8 + 1 + toyRow.pol.lfw ≤ toyRow.b ∧
    (8 + 1 + 15 + toyRow.pol.lfw) % toyRow.b = 0 ∧ 15 < toyRow.b ∧
    (15 + 1 + 8 + toyRow.pol.lfw) % toyRow.b = 0 := by
  decide

theorem witness_LengthFieldHoldsTheBitLength :
    toyRow.wf = true ∧ toyRow.pol.kind = .mdl ∧ toyRow.pol.lenEndian = .be ∧ tooLong toyRow (2 ^ 61 - 1) = false ∧
    leRow.wf = true ∧ leRow.pol.kind = .mdl ∧ leRow.pol.lenEndian = .le ∧ tooLong leRow (2 ^ 61 - 1) = false ∧
    tooLong leRow 0 = false := by
  decide

/-- A fit path, a spill path, and a refusal by length. -/
theorem witness_PaddingMachineRefinesDigest :
    busy.consistent = true ∧ Usable busy 0 ∧ busy.slotRow? (0 : BitVec 4).toNat = some toyRow ∧ Usable busy 1 ∧
    busy.slotRow? (1 : BitVec 4).toNat = some toyRow ∧ Usable busy 3 ∧
    busy.slotRow? (3 : BitVec 4).toNat = some toyRow := by
  decide

theorem witness_CompressFoldsWholeBlocks :
    busy.cfg.row? 0x7F = some toyRow ∧ 0 < toyRow.b ∧ (∀ b ∈ [zeros 16, rep 1 16], b.length = toyRow.b) := by
  refine ⟨by decide, by decide, ?_⟩
  simp [toyRow, zeros, rep]

theorem witness_CompressLatchesFaultOnPartialBlocks :
    busy.cfg.row? 0x7F = some toyRow ∧ (zeros 15).length % toyRow.b ≠ 0 ∧ (zeros 17).length % toyRow.b ≠ 0 := by
  decide

theorem witness_CompressOfAConcatenation :
    0 < toyRow.b ∧ (zeros 16).length % toyRow.b = 0 ∧ (zeros 32).length % toyRow.b = 0 := by
  decide

theorem witness_FinalizeAnswersTheDigest :
    busy.cfg.row? 0x7F = some toyRow ∧ toyRow.wf = true ∧ (zeros 16).length = toyRow.b ∧ 0 < toyRow.b ∧
    15 < toyRow.b := by
  decide

/-- An undefined tag; a partial block one byte short; a fill count one too large; an Active slot of an
undefined tag. -/
theorem witness_OperandsOutsideTheTableStop :
    busy.cfg.row? 0x55 = none ∧ busy.cfg.row? 0 = none ∧ busy.cfg.row? 0x7F = some toyRow ∧
    (zeros 15).length ≠ toyRow.b ∧ toyRow.b ≤ 16 ∧ Usable unlisted 0 ∧
    unlisted.slotRow? (0 : BitVec 4).toNat = none := by
  decide

end Sys2Proof.Tests
end

section
/-! What `step` runs when it takes a packet: the rules of `fetch` and `step` that later proofs about whole steps
cite, and the obligation that ties `step` to `exec`. -/

namespace Sys2Proof.Machine

variable {s t : State} {i : Instr}

/-! ### Fetching -/

/-- Nothing driven on the core port is no instruction (30_encoding.md R72). -/
@[simp] theorem decodeTransaction_idle : decodeTransaction CoreRequest.idle = .reject .portIdle := rfl

/-- With reset released and the core port idle, what comes next is at the front of the input. -/
theorem fetch_of_takesPacket (h : TakesPacket s) : fetch s = fetchPacket s := by
  obtain ⟨hrst, hreq, -⟩ := h
  simp [fetch, hrst, hreq]

/-- A whole packet that decodes is run on the state that has accepted it. -/
theorem fetchPacket_of_instr {w : Word} {payload rest : List Byte} (hphase : s.phase = .idle)
    (hframe : framePacket s.cfg.wordOrder s.input = .packet w payload rest)
    (hdecode : decodePacket w payload = .instr i) : fetchPacket s = .run i (s.accept rest) := by
  simp [fetchPacket, hphase, hframe, hdecode]

/-! ### The step -/

theorem step_of_fetch_run (h : fetch s = .run i t) : step s = exec i t := by
  simp [step, h]

/-- The step that takes a decodable packet is `exec` on the state that has accepted it. -/
theorem step_eq_exec_accept {w : Word} {payload rest : List Byte} (h : TakesPacket s)
    (hframe : framePacket s.cfg.wordOrder s.input = .packet w payload rest)
    (hdecode : decodePacket w payload = .instr i) : step s = exec i (s.accept rest) := by
  have ⟨_, _, hphase⟩ := h
  have hfetch : fetch s = .run i (s.accept rest) :=
    (fetch_of_takesPacket h).trans (fetchPacket_of_instr hphase hframe hdecode)
  exact step_of_fetch_run hfetch

/-- Settles O6: `fetch` reaches the packet and hands `exec` the accepted state, whose consistency mentions neither
of the two fields that accepting writes. -/
theorem stepRunsDecodedPacket : Obligations.StepRunsDecodedPacket := by
  intro s w payload rest i htakes hframe hdecode
  refine ⟨step_eq_exec_accept htakes hframe hdecode, fun hcons => ?_⟩
  have haccept : (s.accept rest).consistent = true := by rw [State.consistent_accept, hcons]
  exact haccept

end Sys2Proof.Machine
end

section
/-! What an instruction that answers has done, said once for all eight, and what a step can do. The statements
about every instruction and every step are derived from these two inversions. -/

namespace Sys2Proof.Machine

variable {s t : State} {i : Instr}

/-! ### The effect of an instruction -/

/-- The slot an accepted command writes, and what it writes there (10_state.md R27). UPDATE and UPDATE1 are the
two commands that feed a slot. -/
inductive SlotWrite (s : State) : Instr → Nat → Slot → Prop where
  | new {c : BitVec 4} {alg : BitVec 8} {row : AlgRecord} (hrow : s.cfg.row? alg = some row)
      (htag : (s.slot c.toNat).tag = .erased) :
      SlotWrite s (.new c alg) c.toNat (freshSlot row alg (s.slot c.toNat))
  | feed {c : BitVec 4} {f : Feed} {row : AlgRecord} {sl : Slot} (hrow : s.slotRow? c.toNat = some row)
      (htag : (s.slot c.toNat).tag = .active) (habsorb : absorb row (s.slot c.toNat) f.data = some sl) :
      SlotWrite s (f.on c) c.toNat sl
  | duplicate {d src : BitVec 4} (htag : (s.slot src.toNat).tag = .active) :
      SlotWrite s (.duplicate d src) d.toNat (copySlot (s.slot src.toNat))
  | erase {c : BitVec 4} : SlotWrite s (.erase c) c.toNat (Slot.canonical s.cfg.bmax)

/-- What an instruction that answers can have done to the state: refused, written one slot, aborted while feeding
a slot (60_exceptions.md R176), answered a digest, or answered on the core port. -/
inductive Effect (s : State) : Instr → State → Prop where
  | refuse {i : Instr} (st : Status) : Effect s i (s.raise st)
  | write {i : Instr} {x : Nat} {sl : Slot} (hw : SlotWrite s i x sl) :
      Effect s i ((s.setSlot x sl).respond .ok [])
  | abort {c : BitVec 4} {f : Feed} {row : AlgRecord} (hrow : s.slotRow? c.toNat = some row)
      (htag : (s.slot c.toNat).tag = .active) (habsorb : absorb row (s.slot c.toNat) f.data = none) :
      Effect s (f.on c) (s.abortUpdate c.toNat)
  | digest {c : BitVec 4} {row : AlgRecord} (hrow : s.slotRow? c.toNat = some row)
      (htag : (s.slot c.toNat).tag = .active) :
      Effect s (.digest c) (finishDigest row (s.snapshot c.toNat))
  | transaction {i : Instr} (hport : i.isCommand = false) (reply : CoreReply) (fault : Bool)
      (hlatch : s.fault = true → fault = true) :
      Effect s i { s with fault := fault, coreReply := reply }

theorem effect_of_execNew {c : BitVec 4} {alg : BitVec 8} (h : execNew c alg s = .next t) :
    Effect s (.new c alg) t := by
  rcases execNew_cases h with ⟨st, -, rfl⟩ | ⟨hpass, row, hrow, rfl⟩
  · exact .refuse st
  · obtain ⟨-, -, -, htag⟩ := State.refusesNew_eq_none.mp hpass
    exact .write (.new hrow (Tag.ne_active.mp htag))

theorem effect_of_updateWith {c : BitVec 4} (f : Feed) (h : updateWith c f.data s = .next t) :
    Effect s (f.on c) t := by
  rcases updateWith_cases h with ⟨st, -, rfl⟩ | ⟨hpass, row, hrow, hend⟩
  · exact .refuse st
  · obtain ⟨-, -, htag⟩ := State.refusesUse_eq_none.mp hpass
    rw [Tag.ne_erased] at htag
    rcases hend with ⟨sl, habsorb, rfl⟩ | ⟨habsorb, rfl⟩
    · exact .write (.feed hrow htag habsorb)
    · exact .abort hrow htag habsorb

theorem effect_of_execDigest {c : BitVec 4} (h : execDigest c s = .next t) : Effect s (.digest c) t := by
  rcases execDigest_cases h with ⟨st, -, rfl⟩ | ⟨hpass, row, hrow, rfl⟩
  · exact .refuse st
  · obtain ⟨-, -, htag⟩ := State.refusesUse_eq_none.mp hpass
    exact .digest hrow (Tag.ne_erased.mp htag)

theorem effect_of_execDuplicate {d src : BitVec 4} (h : execDuplicate d src s = .next t) :
    Effect s (.duplicate d src) t := by
  rcases execDuplicate_cases h with ⟨st, -, rfl⟩ | ⟨hpass, rfl⟩
  · exact .refuse st
  · obtain ⟨-, -, -, htag, -⟩ := State.refusesDuplicate_eq_none.mp hpass
    exact .write (.duplicate (Tag.ne_erased.mp htag))

theorem effect_of_execErase {c : BitVec 4} (h : execErase c s = .next t) : Effect s (.erase c) t := by
  rcases execErase_cases h with ⟨st, -, rfl⟩ | ⟨-, rfl⟩
  · exact .refuse st
  · exact .write .erase

/-- Every instruction that answers has had one of the five effects. -/
theorem effect_of_exec (h : exec i s = .next t) : Effect s i t := by
  cases i with
  | new c alg => exact effect_of_execNew h
  | update c data => exact effect_of_updateWith (.bytes data) h
  | update1 c byte => exact effect_of_updateWith (.byte byte) h
  | digest c => exact effect_of_execDigest h
  | duplicate d src => exact effect_of_execDuplicate h
  | erase c => exact effect_of_execErase h
  | compress a cs data =>
    obtain ⟨reply, fault, rfl, hlatch⟩ := execCompress_cases h
    exact .transaction rfl reply fault hlatch
  | finalize a cs pb fc tl =>
    obtain ⟨reply, fault, rfl, hlatch⟩ := execFinalize_cases h
    exact .transaction rfl reply fault hlatch

/-! ### The end of DIGEST, field by field -/

@[simp] theorem finishDigest_cfg (row : AlgRecord) (s : State) : (finishDigest row s).cfg = s.cfg := by
  rcases finishDigest_cases row s with ⟨bytes, h, -⟩ | h | h <;> rw [h] <;> rfl

@[simp] theorem finishDigest_phase (row : AlgRecord) (s : State) : (finishDigest row s).phase = .idle := by
  rcases finishDigest_cases row s with ⟨bytes, h, -⟩ | h | h <;> rw [h] <;> rfl

@[simp] theorem slot_finishDigest (row : AlgRecord) (s : State) (x : Nat) :
    (finishDigest row s).slot x = s.slot x := by
  rcases finishDigest_cases row s with ⟨bytes, h, -⟩ | h | h <;> rw [h] <;> rfl

theorem finishDigest_keeps_fault {row : AlgRecord} (h : s.fault = true) : (finishDigest row s).fault = true := by
  rcases finishDigest_cases row s with ⟨bytes, he, -⟩ | he | he <;> rw [he]
  · exact h
  · exact h
  · rfl

/-! ### What every effect keeps -/

/-- After one slot is written, an index reads as that slot, or as before. -/
theorem State.slot_setSlot_cases (s : State) (c : Nat) (sl : Slot) (x : Nat) :
    (x = c ∧ (s.setSlot c sl).slot x = sl) ∨ (s.setSlot c sl).slot x = s.slot x := by
  by_cases hx : x = c
  · subst hx
    by_cases hlt : x < s.ctx.length
    · exact .inl ⟨rfl, State.slot_setSlot_same hlt⟩
    · exact .inr (by simp [State.slot, State.setSlot, hlt])
  · exact .inr (State.slot_setSlot_other hx)

theorem SlotWrite.writtenSlot_eq {x : Nat} {sl : Slot} (h : SlotWrite s i x sl) : writtenSlot i = some x := by
  cases h with
  | @feed c f => cases f <;> rfl
  | _ => rfl

theorem Feed.writtenSlot_on (f : Feed) (c : BitVec 4) : writtenSlot (f.on c) = some c.toNat := by
  cases f <;> rfl

theorem Effect.cfg_eq (h : Effect s i t) : t.cfg = s.cfg := by
  cases h with
  | digest => simp
  | _ => rfl

theorem Effect.keeps_fault (h : Effect s i t) (hfault : s.fault = true) : t.fault = true := by
  cases h with
  | refuse => exact hfault
  | write => exact hfault
  | abort => rfl
  | digest => exact finishDigest_keeps_fault hfault
  | transaction _ _ _ hlatch => exact hlatch hfault

/-- A command ends at a command boundary; a core transaction leaves the phase as it is. -/
theorem Effect.phase_idle (h : Effect s i t) (hidle : i.isCommand = true ∨ s.phase = .idle) : t.phase = .idle := by
  cases h with
  | refuse => rfl
  | write => rfl
  | abort => rfl
  | digest => simp
  | transaction hport => simpa [hport] using hidle

/-- An instruction changes no slot but the one it may write, whatever its outcome. -/
theorem Effect.slot_of_ne_written (h : Effect s i t) {x : Nat} (hx : writtenSlot i ≠ some x) :
    t.slot x = s.slot x := by
  cases h with
  | refuse => rfl
  | write hw =>
    rw [State.slot_respond]
    exact State.slot_setSlot_other fun he => hx (he ▸ hw.writtenSlot_eq)
  | @abort c f =>
    exact State.slot_setSlot_other fun he => hx (he ▸ f.writtenSlot_on c)
  | digest => simp
  | transaction => rfl

/-- A slot is written by the command, or keeps its tag; an aborted UPDATE keeps the tag (60_exceptions.md R176). -/
theorem Effect.written_or_tag_eq (h : Effect s i t) (x : Nat) :
    SlotWrite s i x (t.slot x) ∨ (t.slot x).tag = (s.slot x).tag := by
  cases h with
  | refuse => exact .inr rfl
  | @write _ y sl hw =>
    rcases State.slot_setSlot_cases s y sl x with ⟨rfl, he⟩ | he
    · exact .inl (by rwa [State.slot_respond, he])
    · exact .inr (by rw [State.slot_respond, he])
  | @abort c f =>
    rcases State.slot_setSlot_cases s c.toNat ((s.slot c.toNat).partlyWritten s.cfg.bmax s.freeIx) x with
      ⟨rfl, he⟩ | he
    · exact .inr ((congrArg Slot.tag he).trans rfl)
    · exact .inr (congrArg Slot.tag he)
  | digest => exact .inr (by simp)
  | transaction => exact .inr rfl

/-! ### What a step can do -/

/-- A packet that decodes is a command; core transactions come from the core port (30_encoding.md R61, R72). -/
theorem isCommand_of_decodePacket {w : Word} {payload : List Byte} (h : decodePacket w payload = .instr i) :
    i.isCommand = true := by
  unfold decodePacket at h
  split at h
  · cases h
  · rename_i op _
    split at h
    · cases h
      cases op <;> rfl
    · cases h

theorem fetchPacket_ne_reset : fetchPacket s ≠ .reset := by
  unfold fetchPacket
  repeat' split
  all_goals simp

/-- What is run from the input is a command, on the state that has accepted its packet. -/
theorem fetchPacket_run_cases (h : fetchPacket s = .run i t) :
    i.isCommand = true ∧ ∃ rest, t = s.accept rest := by
  unfold fetchPacket at h
  split at h
  · split at h
    · cases h
    · cases h
    · split at h
      · rename_i hdecode
        cases h
        exact ⟨isCommand_of_decodePacket hdecode, _, rfl⟩
      · cases h
  · cases h

theorem fetchPacket_illegal_cases (h : fetchPacket s = .illegal t) : ∃ rest, t = s.accept rest := by
  unfold fetchPacket at h
  split at h
  · split at h
    · cases h
    · cases h
    · split at h
      · cases h
      · cases h
        exact ⟨_, rfl⟩
  · cases h

/-- A refused word is answered with one response and no other change (60_exceptions.md R177). -/
theorem raiseIllegal_eq_raise (s : State) : ∃ st, s.raiseIllegal = s.raise st := by
  unfold State.raiseIllegal
  split
  · exact ⟨_, rfl⟩
  · exact ⟨_, rfl⟩

/-- What a step that answers can have been: the reset action, a core transaction, a command, or the refusal of an
illegal word. -/
inductive StepEffect (s : State) : State → Prop where
  | reset (hrst : s.rst = true) : StepEffect s s.hardwareReset
  | transaction {i : Instr} {t : State} (h : Effect { s with coreReq := CoreRequest.idle } i t) : StepEffect s t
  | command {i : Instr} {rest : List Byte} {t : State} (hi : i.isCommand = true)
      (h : Effect (s.accept rest) i t) : StepEffect s t
  | illegal (rest : List Byte) (st : Status) : StepEffect s ((s.accept rest).raise st)

theorem fetch_cases (s : State) :
    (s.rst = true ∧ fetch s = .reset) ∨ (∃ i, fetch s = .run i { s with coreReq := CoreRequest.idle }) ∨
      fetch s = fetchPacket s ∨ fetch s = .stop .creqNeverDriven := by
  unfold fetch
  split
  · exact .inl ⟨‹_›, rfl⟩
  · split
    · exact .inr (.inl ⟨_, rfl⟩)
    · exact .inr (.inr (.inl rfl))
    all_goals exact .inr (.inr (.inr rfl))

/-- Every step that answers is one of the four. -/
theorem stepEffect_of_step (h : step s = .next t) : StepEffect s t := by
  unfold step at h
  rcases fetch_cases s with ⟨hrst, hf⟩ | ⟨i, hf⟩ | hf | hf
  · rw [hf] at h
    cases h
    exact .reset hrst
  · rw [hf] at h
    exact .transaction (effect_of_exec h)
  · rw [hf] at h
    split at h
    · exact absurd ‹_› fetchPacket_ne_reset
    · obtain ⟨hi, rest, rfl⟩ := fetchPacket_run_cases ‹_›
      exact .command hi (effect_of_exec h)
    · obtain ⟨rest, rfl⟩ := fetchPacket_illegal_cases ‹_›
      obtain ⟨st, hst⟩ := raiseIllegal_eq_raise (s.accept rest)
      cases h
      rw [hst]
      exact .illegal rest st
    · cases h
    · cases h
  · rw [hf] at h
    cases h

end Sys2Proof.Machine
end

section
/-! Every step keeps the invariants of 10_state.md R21: each way a slot is written gives a slot that meets them,
and from a consistent state no command aborts. -/

namespace Sys2Proof.Machine

variable {s t : State} {i : Instr}

/-! ### The slots that commands write -/

theorem Slot.inv_canonical (cfg : Config) : (Slot.canonical cfg.bmax).inv cfg = true := by
  simp [Slot.inv, Slot.canonical]

theorem writeAt_zeros {m n : Nat} (h : m ≤ n) : writeAt (zeros n) 0 (zeros m) = zeros n := by
  rw [writeAt_eq (by simpa using h)]
  simp [zeros_append, Nat.add_sub_of_le h]

/-- NEW on the canonical erased slot makes a Hasher that has absorbed nothing (43_lifecycle.md R141). -/
theorem activeSlot_freshSlot {cfg : Config} {alg : BitVec 8} {row : AlgRecord} (hc : cfg.wf = true)
    (hrow : cfg.row? alg = some row) : ActiveSlot cfg (freshSlot row alg (Slot.canonical cfg.bmax)) row := by
  obtain ⟨hw, hb⟩ := Config.row?_wf hc hrow
  have hpb : (freshSlot row alg (Slot.canonical cfg.bmax)).pb = zeros cfg.bmax := writeAt_zeros hb
  exact {
    row_eq := hrow
    wf := hw
    b_le := hb
    fc_lt := row.b_pos hw
    fc_eq := (Nat.zero_mod _).symm
    pb_length := by simp [hpb]
    pb_rest := by simp [hpb]
    cs_lt := row.iv_lt }

/-- `absorb` never violates the block contract of an Active slot, and keeps its invariants (40_update.md R86). -/
theorem ActiveSlot.absorb {cfg : Config} {sl : Slot} {row : AlgRecord} (h : ActiveSlot cfg sl row)
    (data : List Byte) :
    ∃ sl', Machine.absorb row sl data = some sl' ∧ sl'.tag = sl.tag ∧ ActiveSlot cfg sl' row := by
  have hlen : row.b ≤ sl.pb.length := h.pb_length ▸ h.b_le
  obtain ⟨sl', he, htag, halg, hfc, htl, hcs, -, hpl, hpd⟩ :=
    absorb_closed_form (row.b_pos h.wf) h.fc_lt hlen data
  exact ⟨sl', he, htag, {
    row_eq := halg ▸ h.row_eq
    wf := h.wf
    b_le := h.b_le
    fc_lt := hfc ▸ Nat.mod_lt _ (row.b_pos h.wf)
    fc_eq := by rw [hfc, htl, h.fc_eq, Nat.mod_add_mod]
    pb_length := hpl.trans h.pb_length
    pb_rest := hpd.trans h.pb_rest
    cs_lt := hcs ▸ foldBlocks_lt row _ _ h.cs_lt }⟩

/-- The invariants of the Active slot behind an index, for the record the index names. -/
theorem State.consistent_activeSlot (h : s.consistent = true) {x : Nat} {row : AlgRecord}
    (hrow : s.slotRow? x = some row) (ht : (s.slot x).tag = .active) : ActiveSlot s.cfg (s.slot x) row := by
  obtain ⟨row', hrow', hslot⟩ := State.consistent_usable h ht
  obtain rfl : row' = row := Option.some.inj (hrow'.symm.trans hrow)
  exact hslot

/-- The copy of an Active slot is the slot, field by field (43_lifecycle.md R144). -/
theorem copySlot_of_active {sl : Slot} (h : sl.tag = .active) : copySlot sl = sl := by
  rw [copySlot, ← h]

/-- Each way a command writes a slot gives a slot that meets the slot invariants. -/
theorem SlotWrite.inv {x : Nat} {sl : Slot} (h : SlotWrite s i x sl) (hs : s.consistent = true) :
    sl.inv s.cfg = true := by
  have hc := (State.consistent_iff.mp hs).1
  cases h with
  | @new c _ row hrow htag =>
    rw [Slot.inv_erased (State.consistent_slot hs c.toNat) htag]
    exact (Slot.inv_active hc rfl).mpr ⟨row, activeSlot_freshSlot hc hrow⟩
  | @feed c f row _ hrow htag habsorb =>
    obtain ⟨sl', he, htag', hslot⟩ := (State.consistent_activeSlot hs hrow htag).absorb f.data
    obtain rfl : sl' = sl := Option.some.inj (he.symm.trans habsorb)
    exact (Slot.inv_active hc (htag'.trans htag)).mpr ⟨row, hslot⟩
  | @duplicate _ src htag =>
    rw [copySlot_of_active htag]
    exact State.consistent_slot hs src.toNat
  | erase => exact Slot.inv_canonical s.cfg

/-! ### The response to DIGEST -/

/-- What DIGEST answers for an Active slot: it reads `TL`, `CS` and the pending bytes, no byte beyond them
(41_digest_padding.md R103, R114). -/
def digestResponse (row : AlgRecord) (sl : Slot) : Response :=
  if tooLong row sl.tl then { status := .eMsgTooLong, digest := [] }
  else { status := .ok, digest := row.output (paddedState row sl.cs sl.tl sl.pending) }

/-- The end of DIGEST on a slot that meets the invariants: `S` is discarded and that response sent. -/
theorem finishDigest_snapshot {c : Nat} {row : AlgRecord} (h : ActiveSlot s.cfg (s.slot c) row) :
    finishDigest row (s.snapshot c) = (s.snapshot c).discardScratch.respond
      (digestResponse row (s.slot c)).status (digestResponse row (s.slot c)).digest := by
  have hlen : (archBuffer row (s.slot c).pb).length = row.b := by
    simp [archBuffer, h.pb_length, h.b_le]
  have hpend : (archBuffer row (s.slot c).pb).take (s.slot c).fc = (s.slot c).pending := by
    rw [archBuffer, List.take_take, Nat.min_eq_left h.fc_lt.le, Slot.pending]
  have hfinal := finalizeDestructively_eq h.wf hlen h.fc_lt (s.slot c).cs (s.slot c).tl
  rw [hpend] at hfinal
  by_cases hlong : tooLong row (s.slot c).tl = true
  · simp [finishDigest, Slot.toScratch, hfinal, digestResponse, hlong, State.raise]
  · simp [finishDigest, Slot.toScratch, hfinal, digestResponse, hlong]

/-! ### Consistency -/

/-- Discarding the scratch context makes good what the snapshot wrote into it (10_state.md R24). -/
theorem State.consistent_discardScratch_snapshot (h : s.consistent = true) (c : Nat) :
    (s.snapshot c).discardScratch.consistent = true := by
  obtain ⟨hc, hl, hs, -⟩ := State.consistent_iff.mp h
  exact State.consistent_iff.mpr ⟨hc, hl, hs, rfl⟩

/-- From a consistent state every instruction that answers comes to one; no command aborts. -/
theorem Effect.consistent (h : Effect s i t) (hs : s.consistent = true) : t.consistent = true := by
  cases h with
  | refuse => simpa using hs
  | write hw => simpa using State.consistent_setSlot hs (hw.inv hs) _
  | @abort c f row hrow htag habsorb =>
    obtain ⟨sl, he, -⟩ := (State.consistent_activeSlot hs hrow htag).absorb f.data
    simp [he] at habsorb
  | digest hrow htag =>
    rw [finishDigest_snapshot (State.consistent_activeSlot hs hrow htag), State.consistent_respond]
    exact State.consistent_discardScratch_snapshot hs _
  | transaction => exact hs

theorem State.initial_consistent {cfg : Config} (h : cfg.wf = true) : (State.initial cfg).consistent = true := by
  refine State.consistent_iff.mpr ⟨h, by simp [State.initial], fun sl hsl => ?_, rfl⟩
  rw [List.eq_of_mem_replicate hsl]
  exact Slot.inv_canonical cfg

/-- The machine of legal parameters meets the invariants right after reset (R28). -/
theorem State.initial_inv {cfg : Config} (h : cfg.wf = true) : (State.initial cfg).inv = true :=
  State.inv_iff.mpr ⟨State.initial_consistent h, rfl⟩

/-- So does the reset action, whatever the state before held (70_reset_and_hazards.md R196). -/
theorem State.hardwareReset_inv (h : s.cfg.wf = true) : s.hardwareReset.inv = true :=
  State.initial_inv h

/-- The spec's default parameters are legal (R131). -/
theorem defaultConfig_wf : defaultConfig.wf = true := by decide

/-! ### The obligations -/

/-- Settles O17: reset gives the initial state, and the three other kinds of step keep consistency and end at a
command boundary. -/
theorem stepKeepsTheInvariants : Obligations.StepKeepsTheInvariants := by
  intro s t hinv hstep
  obtain ⟨hs, hphase⟩ := State.inv_iff.mp hinv
  cases stepEffect_of_step hstep with
  | reset => exact State.hardwareReset_inv (State.consistent_iff.mp hs).1
  | transaction h =>
    exact State.inv_iff.mpr ⟨h.consistent hs, h.phase_idle (.inr hphase)⟩
  | command hi h =>
    exact State.inv_iff.mpr ⟨h.consistent (by simpa using hs), h.phase_idle (.inl hi)⟩
  | illegal => exact State.inv_iff.mpr ⟨by simpa using hs, rfl⟩

/-- Settles O16: the reset state is the initial state of the default parameters. -/
theorem resetMeetsTheInvariants : Obligations.ResetMeetsTheInvariants := State.initial_inv defaultConfig_wf

end Sys2Proof.Machine
end

section
/-! The frame of every step and of every instruction, the lifecycle of a slot, the reset values, and DIGEST's
blindness to stale bytes. -/

namespace Sys2Proof.Machine

variable {s t : State} {i : Instr}

/-! ### Frames -/

/-- Settles O20, case by case over what a step can do. -/
theorem parametersNeverChange : Obligations.ParametersNeverChange := by
  intro s t hstep
  cases stepEffect_of_step hstep with
  | reset => rfl
  | transaction h => exact h.cfg_eq
  | command _ h => exact h.cfg_eq
  | illegal => rfl

/-- Settles O22: of the four kinds of step only reset, excluded here, does not keep a latched `FAULT`. -/
theorem onlyResetClearsFault : Obligations.OnlyResetClearsFault := by
  intro s t hfault hrst hstep
  cases stepEffect_of_step hstep with
  | reset hrst' => simp [hrst] at hrst'
  | transaction h => exact h.keeps_fault hfault
  | command _ h => exact h.keeps_fault hfault
  | illegal => exact hfault

/-- Settles O35, from the effect of the instruction on the slots. -/
theorem slotIsolation : Obligations.SlotIsolation := fun _ _ _ hexec _ hx =>
  (effect_of_exec hexec).slot_of_ne_written hx

/-- A write that ends an Active slot is ERASE's. -/
theorem SlotWrite.eq_erase {x : Nat} {sl : Slot} (h : SlotWrite s i x sl) (hs : (s.slot x).tag = .active)
    (hsl : sl.tag = .erased) : ∃ c, i = .erase c ∧ c.toNat = x := by
  cases h with
  | new => cases hsl
  | feed _ _ habsorb => simp [(absorb_keeps habsorb).1, hs] at hsl
  | duplicate => cases hsl
  | erase => exact ⟨_, rfl, rfl⟩

/-- A write that makes an Erased slot Active is NEW's or DUPLICATE's. -/
theorem SlotWrite.eq_new_or_duplicate {x : Nat} {sl : Slot} (h : SlotWrite s i x sl)
    (hs : (s.slot x).tag = .erased) (hsl : sl.tag = .active) :
    (∃ c alg, i = .new c alg ∧ c.toNat = x) ∨ ∃ d src, i = .duplicate d src ∧ d.toNat = x := by
  cases h with
  | new => exact .inl ⟨_, _, rfl, rfl⟩
  | feed _ htag => simp [htag] at hs
  | duplicate => exact .inr ⟨_, _, rfl, rfl⟩
  | erase => cases hsl

/-- Settles O32: a slot that changes its tag has been written, and each write says what it does to the tag. -/
theorem lifecycleTransitions : Obligations.LifecycleTransitions := by
  intro s t i x hexec
  rcases (effect_of_exec hexec).written_or_tag_eq x with hw | htag
  · exact ⟨hw.eq_erase, hw.eq_new_or_duplicate⟩
  · rw [htag]
    exact ⟨fun ha he => by simp [ha] at he, fun he ha => by simp [he] at ha⟩

/-! ### The reset state -/

/-- Every index of the initial state reads as the canonical erased slot. -/
theorem State.initial_slot (cfg : Config) (x : Nat) :
    (State.initial cfg).slot x = Slot.canonical cfg.bmax := by
  simp [State.slot, State.initial]

/-- Settles O14: every slot is the canonical one, and the other fields are set to the listed values. -/
theorem resetStateHasTheListedValues : Obligations.ResetStateHasTheListedValues := by
  have hslot (c : Nat) : State.reset.slot c = Slot.canonical State.reset.cfg.bmax :=
    State.initial_slot defaultConfig c
  refine ⟨List.length_replicate, fun c => ?_, rfl, rfl, rfl, rfl, rfl, rfl, rfl⟩
  rw [hslot c]
  exact ⟨rfl, rfl, rfl, rfl, rfl, rfl⟩

/-! ### DIGEST and stale bytes -/

/-- DIGEST of a usable slot answers with the response of its logical state. -/
theorem execDigest_of_usable {c : BitVec 4} (hs : s.consistent = true) (hc : Usable s c) :
    ∃ row t, s.slotRow? c.toNat = some row ∧ exec (.digest c) s = .next t ∧
      t.out = s.out ++ [digestResponse row (s.slot c.toNat)] := by
  obtain ⟨hfault, hlt, htag⟩ := hc
  obtain ⟨row, hrow, hslot⟩ := State.consistent_usable hs htag
  have hpass : s.refusesUse c = none := State.refusesUse_eq_none.mpr ⟨hfault, hlt, by simp [htag]⟩
  have hexec : exec (.digest c) s = .next (finishDigest row (s.snapshot c.toNat)) := by
    simp [exec, execDigest, hpass, hrow]
  exact ⟨row, _, hrow, hexec, by rw [finishDigest_snapshot hslot]; rfl⟩

theorem digestResponse_congr {x y : Slot} (row : AlgRecord) (h : SameLogical x y) :
    digestResponse row x = digestResponse row y := by
  rw [digestResponse, h.tl, h.cs, h.pending, digestResponse]

/-- Settles O47: both answers are the response of the logical state under one record. -/
theorem digestIgnoresStaleBytes : Obligations.DigestIgnoresStaleBytes := by
  intro s u c d hs hu hcfg hc hd hlogical
  obtain ⟨row, s', hrow, hexec, hout⟩ := execDigest_of_usable hs hc
  obtain ⟨row', u', hrow', hexec', hout'⟩ := execDigest_of_usable hu hd
  have hrows : row = row' := by
    rw [State.slotRow?, hcfg, hlogical.alg] at hrow
    exact Option.some.inj (hrow.symm.trans hrow')
  rw [← hrows, ← digestResponse_congr row hlogical] at hout'
  exact ⟨s', u', _, hexec, hexec', hout, hout'⟩

end Sys2Proof.Machine
end

section
/-! The step of a command whose serialised packet stands at the front of the input: what encoding puts there,
framing and decoding take back (30_encoding.md R60 to R65). -/

namespace Sys2Proof.Machine

variable {i : Instr}

/-! ### What the encoding of a command is -/

/-- Every well-formed instruction is carried whole. -/
theorem carried_whole (i : Instr) : Laws.Carried.Statement i := by
  cases i with
  | new c alg => exact Laws.Carried.new c alg
  | update c data => exact Laws.Carried.update c data
  | update1 c byte => exact Laws.Carried.update1 c byte
  | digest c => exact Laws.Carried.digest c
  | duplicate d src => exact Laws.Carried.duplicate d src
  | erase c => exact Laws.Carried.erase c
  | compress a cs data => exact Laws.Carried.compress a cs data
  | finalize a cs pb fc tl => exact Laws.Carried.finalize a cs pb fc tl

theorem length_of_encode_packet {w : Word} {payload : List Byte} (hwf : i.wf = true)
    (h : encode i = .packet w payload) : payload.length = payloadLength w := by
  have hcarried := carried_whole i hwf
  rw [h] at hcarried
  exact hcarried.2

/-- The upper byte of the immediate of NEW and UPDATE1 is zero (R64). -/
theorem zero_append_and_mask (lo : BitVec 8) : (0#8 ++ lo) &&& 0xFF00#16 = 0#16 := by
  rw [show (0xFF00#16) = 0xFF#8 ++ 0#8 from rfl, BitVec.and_append]
  simp

/-- The word of a command selects the command's row, whose operand assembly gives the command back. -/
theorem exists_selectRow_encode (hi : i.isCommand = true) :
    ∃ w payload op, encode i = .packet w payload ∧ selectRow w = some op ∧ operands w payload op = i := by
  cases i with
  | new => exact ⟨_, _, .new, rfl, by simp [selectRow_eq, selects_iff, zero_append_and_mask], by simp [operands]⟩
  | update => exact ⟨_, _, .update, rfl, by simp [selectRow_eq, selects_iff], by simp [operands]⟩
  | update1 =>
    exact ⟨_, _, .update1, rfl, by simp [selectRow_eq, selects_iff, zero_append_and_mask], by simp [operands]⟩
  | digest => exact ⟨_, _, .digest, rfl, by simp [selectRow_eq, selects_iff], by simp [operands]⟩
  | duplicate => exact ⟨_, _, .duplicate, rfl, by simp [selectRow_eq, selects_iff], by simp [operands]⟩
  | erase => exact ⟨_, _, .erase, rfl, by simp [selectRow_eq, selects_iff], by simp [operands]⟩
  | compress => cases hi
  | finalize => cases hi

/-- A well-formed command is a packet whose word frames its payload and which decodes to the command. -/
theorem encode_command (hwf : i.wf = true) (hi : i.isCommand = true) :
    ∃ w payload, encode i = .packet w payload ∧ payload.length = payloadLength w ∧
      decodePacket w payload = .instr i := by
  obtain ⟨w, payload, op, hencode, hselect, hoperands⟩ := exists_selectRow_encode hi
  have hlen := length_of_encode_packet hwf hencode
  exact ⟨w, payload, hencode, hlen, by simp [decodePacket, hselect, hlen, hoperands]⟩

/-! ### The obligation -/

/-- Settles O7: the serialised packet is framed back and decodes to the command, and O6 says what the step of
such a packet is. -/
theorem stepRunsEncodedCommand : Obligations.StepRunsEncodedCommand := by
  intro s i rest htakes hwf hi hinput
  obtain ⟨w, payload, hencode, hlen, hdecode⟩ := encode_command hwf hi
  have hframe : framePacket s.cfg.wordOrder s.input = .packet w payload rest := by
    rw [hinput, hencode]
    exact framePacket_streamBytes _ w payload rest hlen
  exact stepRunsDecodedPacket s w payload rest i htakes hframe hdecode

end Sys2Proof.Machine
end

section
/-! Commands and packets are answered: from a consistent state every command comes to a next state, a command that
has ended has added one response and is ready for the next packet, and the two situations in which the step has no
meaning (20_memory.md R48, R52, R53). -/

namespace Sys2Proof.Machine

variable {s t : State} {i : Instr}

/-! ### Every command comes to a next state -/

/-- A slot that passes the checks of a use holds a defined algorithm (10_state.md R21 item 2). -/
theorem exists_slotRow_of_refusesUse_eq_none (hs : s.consistent = true) {c : BitVec 4}
    (hpass : s.refusesUse c = none) : ∃ row, s.slotRow? c.toNat = some row := by
  obtain ⟨-, -, htag⟩ := State.refusesUse_eq_none.mp hpass
  obtain ⟨row, hrow, -⟩ := State.consistent_usable hs (Tag.ne_erased.mp htag)
  exact ⟨row, hrow⟩

theorem exists_execNew_eq_next (s : State) (c : BitVec 4) (alg : BitVec 8) : ∃ t, execNew c alg s = .next t := by
  unfold execNew
  split
  · exact ⟨_, rfl⟩
  · split
    · exact ⟨_, rfl⟩
    · exact ⟨_, rfl⟩

/-- UPDATE and UPDATE1 answer whether or not `absorb` violates the block contract (60_exceptions.md R176). -/
theorem exists_updateWith_eq_next (hs : s.consistent = true) (c : BitVec 4) (data : List Byte) :
    ∃ t, updateWith c data s = .next t := by
  cases hpass : s.refusesUse c with
  | some st => exact ⟨s.raise st, by simp [updateWith, hpass]⟩
  | none =>
    obtain ⟨row, hrow⟩ := exists_slotRow_of_refusesUse_eq_none hs hpass
    cases habsorb : absorb row (s.slot c.toNat) data with
    | some sl => exact ⟨(s.setSlot c.toNat sl).respond .ok [], by simp [updateWith, hpass, hrow, habsorb]⟩
    | none => exact ⟨s.abortUpdate c.toNat, by simp [updateWith, hpass, hrow, habsorb]⟩

theorem exists_execDigest_eq_next (hs : s.consistent = true) (c : BitVec 4) : ∃ t, execDigest c s = .next t := by
  cases hpass : s.refusesUse c with
  | some st => exact ⟨s.raise st, by simp [execDigest, hpass]⟩
  | none =>
    obtain ⟨row, hrow⟩ := exists_slotRow_of_refusesUse_eq_none hs hpass
    exact ⟨finishDigest row (s.snapshot c.toNat), by simp [execDigest, hpass, hrow]⟩

theorem exists_execDuplicate_eq_next (s : State) (d src : BitVec 4) : ∃ t, execDuplicate d src s = .next t := by
  unfold execDuplicate
  split
  · exact ⟨_, rfl⟩
  · exact ⟨_, rfl⟩

theorem exists_execErase_eq_next (s : State) (c : BitVec 4) : ∃ t, execErase c s = .next t := by
  unfold execErase
  split
  · exact ⟨_, rfl⟩
  · exact ⟨_, rfl⟩

/-- From a consistent state no command faults or is refused a meaning; only a core transaction can be. -/
theorem exists_exec_eq_next (hs : s.consistent = true) (hi : i.isCommand = true) : ∃ t, exec i s = .next t := by
  cases i with
  | new c alg => exact exists_execNew_eq_next s c alg
  | update c data => exact exists_updateWith_eq_next hs c data
  | update1 c byte => exact exists_updateWith_eq_next hs c [byte]
  | digest c => exact exists_execDigest_eq_next hs c
  | duplicate d src => exact exists_execDuplicate_eq_next s d src
  | erase c => exact exists_execErase_eq_next s c
  | compress => cases hi
  | finalize => cases hi

/-! ### The end of a command -/

/-- A command or an illegal word has been answered: one more response, a command boundary, and what the next step
reads beside the phase is as it was (30_encoding.md R66). -/
structure EndsCommand (s t : State) : Prop where
  out : ∃ r, t.out = s.out ++ [r]
  phase : t.phase = .idle
  input : t.input = s.input
  rst : t.rst = s.rst
  coreReq : t.coreReq = s.coreReq

theorem State.respond_endsCommand (s : State) (st : Status) (digest : List Byte) :
    EndsCommand s (s.respond st digest) :=
  ⟨⟨_, rfl⟩, rfl, rfl, rfl, rfl⟩

theorem finishDigest_endsCommand (row : AlgRecord) (s : State) : EndsCommand s (finishDigest row s) := by
  rcases finishDigest_cases row s with ⟨bytes, h, -⟩ | h | h <;> rw [h] <;> exact ⟨⟨_, rfl⟩, rfl, rfl, rfl, rfl⟩

/-- Each effect of a command ends it, the abort on an invariant violation included. -/
theorem Effect.endsCommand (h : Effect s i t) (hi : i.isCommand = true) : EndsCommand s t := by
  cases h with
  | refuse st => exact s.respond_endsCommand st []
  | write => exact ⟨⟨_, rfl⟩, rfl, rfl, rfl, rfl⟩
  | abort => exact ⟨⟨_, rfl⟩, rfl, rfl, rfl, rfl⟩
  | @digest c row =>
    obtain ⟨hout, hphase, hinput, hrst, hreq⟩ := finishDigest_endsCommand row (s.snapshot c.toNat)
    exact ⟨hout, hphase, hinput, hrst, hreq⟩
  | transaction hport => simp [hi] at hport

/-- Every command is carried out to its end. -/
theorem exec_endsCommand (hs : s.consistent = true) (hi : i.isCommand = true) :
    ∃ t, exec i s = .next t ∧ EndsCommand s t := by
  obtain ⟨t, hexec⟩ := exists_exec_eq_next hs hi
  exact ⟨t, hexec, (effect_of_exec hexec).endsCommand hi⟩

/-- Settles O18: the command comes to a next state, and what it did there has ended it. -/
theorem everyCommandAnswers : Obligations.EveryCommandAnswers := by
  intro s i hs hi
  obtain ⟨t, hexec, hends⟩ := exec_endsCommand hs hi
  obtain ⟨r, hout⟩ := hends.out
  exact ⟨t, r, hexec, hout, hends.phase⟩

/-! ### The step that takes a packet -/

/-- The step that takes a packet which does not decode refuses its word, on the state that has accepted it. -/
theorem step_eq_raiseIllegal_accept {w : Word} {payload rest : List Byte} {r : Reject} (h : TakesPacket s)
    (hframe : framePacket s.cfg.wordOrder s.input = .packet w payload rest)
    (hdecode : decodePacket w payload = .reject r) : step s = .next (s.accept rest).raiseIllegal := by
  have ⟨_, _, hphase⟩ := h
  have hfetch : fetch s = .illegal (s.accept rest) := by
    simp [fetch_of_takesPacket h, fetchPacket, hphase, hframe, hdecode]
  simp [step, hfetch]

/-- A whole packet, legal or not, is accepted and carried out to its end. -/
theorem step_endsCommand {w : Word} {payload rest : List Byte} (hs : s.consistent = true) (h : TakesPacket s)
    (hframe : framePacket s.cfg.wordOrder s.input = .packet w payload rest) :
    ∃ t, step s = .next t ∧ EndsCommand (s.accept rest) t := by
  cases hdecode : decodePacket w payload with
  | instr i =>
    rw [step_eq_exec_accept h hframe hdecode]
    exact exec_endsCommand (by simpa using hs) (isCommand_of_decodePacket hdecode)
  | reject r =>
    obtain ⟨st, hraise⟩ := raiseIllegal_eq_raise (s.accept rest)
    rw [step_eq_raiseIllegal_accept h hframe hdecode, hraise]
    exact ⟨_, rfl, State.respond_endsCommand _ st []⟩

/-- The end of an accepted packet leaves the engine ready to take the next one (20_memory.md R52). -/
theorem EndsCommand.takesPacket {rest : List Byte} (h : EndsCommand (s.accept rest) t) (hs : TakesPacket s) :
    TakesPacket t := by
  obtain ⟨hrst, hreq, -⟩ := hs
  exact ⟨h.rst.trans hrst, h.coreReq.trans hreq, h.phase⟩

/-- Settles O58: the accepted packet is carried out to its end, and the step that did so keeps the invariants
by O17. -/
theorem stepAnswersEveryPacket : Obligations.StepAnswersEveryPacket := by
  intro s w payload rest hinv htakes hframe
  obtain ⟨hs, -⟩ := State.inv_iff.mp hinv
  obtain ⟨t, hstep, hends⟩ := step_endsCommand hs htakes hframe
  obtain ⟨r, hout⟩ := hends.out
  exact ⟨t, r, hstep, hout, hends.input, hends.takesPacket htakes, stepKeepsTheInvariants s t hinv hstep⟩

/-! ### The two situations without a step -/

/-- While a command executes, no packet is taken (20_memory.md R53; log entry 7). -/
theorem fetchPacket_of_phase_ne_idle (h : s.phase ≠ .idle) : fetchPacket s = .stop .overlappingPacket := by
  simp [fetchPacket, h]

/-- The request code 11 is no instruction (30_encoding.md R72). -/
theorem decodeTransaction_of_creq_three {r : CoreRequest} (h : r.creq = 3#2) :
    decodeTransaction r = .reject .creqReserved := by
  simp [decodeTransaction, h]

/-- Settles O13: with reset released, the phase stops the packet and the request code stops the transaction. -/
theorem overlapAndReservedRequestHaveNoStep : Obligations.OverlapAndReservedRequestHaveNoStep := by
  intro s hrst
  constructor
  · intro hreq hphase
    simp [step, fetch, hrst, hreq, fetchPacket_of_phase_ne_idle hphase]
  · intro hcreq
    simp [step, fetch, hrst, decodeTransaction_of_creq_three hcreq]

end Sys2Proof.Machine
end

section
/-! The match and mask table, decoding and encoding as inverses, and the framing of a packet (30_encoding.md R60
to R72). -/

namespace Sys2Proof

open Machine

variable {w : Word} {payload : List Byte} {i : Instr} {op : HostOp} {r r' : OpRow}

/-! ### The rows of the match and mask table -/

theorem fieldOp_and (x y : Word) : fieldOp (x &&& y) = fieldOp x &&& fieldOp y := BitVec.extractLsb'_and

/-- Every mask covers `op` (R63). -/
theorem fieldOp_mask : ∀ r ∈ opRows, fieldOp r.mask = 0xF#4 := by decide

/-- No two rows share an opcode (R63). -/
theorem opRow_ext : ∀ r ∈ opRows, ∀ r' ∈ opRows, fieldOp r'.pattern = fieldOp r.pattern → r' = r := by decide

theorem fieldOp_of_match (hr : r ∈ opRows) (h : w &&& r.mask = r.pattern) : fieldOp w = fieldOp r.pattern := by
  rw [← h, fieldOp_and, fieldOp_mask r hr]
  exact BitVec.and_allOnes.symm

/-- A word matches at most one row, because its opcode is the row's (R67). -/
theorem opRow_unique (hr : r ∈ opRows) (hr' : r' ∈ opRows) (h : w &&& r.mask = r.pattern)
    (h' : w &&& r'.mask = r'.pattern) : r' = r :=
  opRow_ext r hr r' hr' ((fieldOp_of_match hr' h').symm.trans (fieldOp_of_match hr h))

theorem selectRow_eq_none_iff : selectRow w = none ↔ ∀ r ∈ opRows, w &&& r.mask ≠ r.pattern := by
  simp [selectRow, OpRow.selects]

theorem selectRow_eq_some_iff :
    selectRow w = some op ↔ ∃ r ∈ opRows, w &&& r.mask = r.pattern ∧ r.op = op := by
  have hfound {r : OpRow} (h : opRows.find? (fun r => r.selects w) = some r) :
      r ∈ opRows ∧ w &&& r.mask = r.pattern :=
    ⟨List.mem_of_find?_eq_some h, by simpa [OpRow.selects] using List.find?_some h⟩
  constructor
  · intro h
    obtain ⟨r, hfind, hop⟩ := Option.map_eq_some_iff.mp h
    obtain ⟨hr, hmatch⟩ := hfound hfind
    exact ⟨r, hr, hmatch, hop⟩
  · rintro ⟨r, hr, hmatch, rfl⟩
    cases hfind : opRows.find? (fun r => r.selects w) with
    | none => exact absurd hmatch (selectRow_eq_none_iff.mp (by simp [selectRow, hfind]) r hr)
    | some r' =>
      obtain ⟨hr', hmatch'⟩ := hfound hfind
      simp [selectRow, hfind, opRow_unique hr hr' hmatch hmatch']

/-! ### Decoding a packet -/

/-- A packet decodes exactly when its word selects a row and frames its payload; the row assembles the operands. -/
theorem decodePacket_eq_instr_iff :
    decodePacket w payload = .instr i ↔
      ∃ op, selectRow w = some op ∧ payload.length = payloadLength w ∧ operands w payload op = i := by
  unfold decodePacket
  cases selectRow w with
  | none => simp
  | some op => by_cases hlen : payload.length = payloadLength w <;> simp [hlen]

/-- A word that matches no row is rejected, whatever its payload. -/
theorem decodePacket_of_no_match (h : ∀ r ∈ opRows, w &&& r.mask ≠ r.pattern) (payload : List Byte) :
    decodePacket w payload = .reject (illegalReason w) := by
  simp [decodePacket, selectRow_eq_none_iff.mpr h]

/-- Settles O5: the opcode singles out the row, and a selected row decodes every payload of the framed length. -/
theorem everyWordMatchesOneRowOrIsIllegal : Obligations.EveryWordMatchesOneRowOrIsIllegal := by
  intro w
  by_cases hmatch : ∃ r ∈ opRows, w &&& r.mask = r.pattern
  · obtain ⟨r, hr, hw⟩ := hmatch
    refine .inl ⟨r, hr, hw, fun r' hr' hw' => opRow_unique hr hr' hw hw', fun payload hlen => ?_⟩
    have hselect : selectRow w = some r.op := selectRow_eq_some_iff.mpr ⟨r, hr, hw, rfl⟩
    exact ⟨_, decodePacket_eq_instr_iff.mpr ⟨r.op, hselect, hlen, rfl⟩⟩
  · have hnone : ∀ r ∈ opRows, w &&& r.mask ≠ r.pattern := fun r hr hw => hmatch ⟨r, hr, hw⟩
    exact .inr ⟨hnone, fun payload => ⟨_, decodePacket_of_no_match hnone payload⟩⟩

/-! ### Decode of encode -/

theorem decode_encode_of_transaction (hi : i.isCommand = false) : decode (encode i) = .instr i := by
  cases i with
  | compress => rfl
  | finalize => rfl
  | _ => cases hi

/-- Settles O1: a command is a packet that decodes back, a core transaction a request that does. -/
theorem decodeEncodeRoundTrip : Obligations.DecodeEncodeRoundTrip := by
  intro i hwf
  cases hi : i.isCommand with
  | true =>
    obtain ⟨w, payload, hencode, -, hdecode⟩ := encode_command hwf hi
    rw [hencode]
    exact hdecode
  | false => exact decode_encode_of_transaction hi

/-- Settles O3: the word of an encoded command frames its payload, and such a packet is framed back. -/
theorem encodedBytesFrameBack : Obligations.EncodedBytesFrameBack := by
  intro order i rest hwf hi
  obtain ⟨w, payload, hencode, hlen, -⟩ := encode_command hwf hi
  refine ⟨w, payload, hencode, ?_⟩
  rw [hencode]
  exact framePacket_streamBytes order w payload rest hlen

/-! ### Encode of decode -/

theorem payloadLength_le_nmax (w : Word) : payloadLength w ≤ nmax := by
  unfold payloadLength nmax
  split
  · exact Nat.le_of_lt_succ (fieldImm w).isLt
  · exact Nat.zero_le _

/-- Only the opcode of UPDATE frames a payload (R65). -/
theorem payload_eq_nil (hlen : payload.length = payloadLength w) (hop : fieldOp w ≠ 2#4) : payload = [] := by
  rw [payloadLength, if_neg hop] at hlen
  exact List.eq_nil_of_length_eq_zero hlen

theorem assembleWord_eq_of_fields {op s : BitVec 4} {imm : BitVec 16} (hop : fieldOp w = op)
    (hs : fieldCtxS w = s) (hrsv : fieldRsv w = 0) (himm : fieldImm w = imm) :
    assembleWord op (fieldCtxD w) s 0 imm = w := by
  rw [← hop, ← hs, ← hrsv, ← himm, assembleWord_fields]

/-- An immediate whose upper byte the mask forces to zero is rebuilt from the lower byte. -/
theorem fieldImm_eq_low (h : fieldImm w &&& 0xFF00#16 = 0#16) : fieldImm w = 0#8 ++ fieldLow w := by
  rw [fieldLow_eq]
  exact imm_eq_low h

/-- Encoding the operands that a selected row assembles gives the packet back: the bits the operands do not hold
are the ones that the row fixes. -/
theorem encode_operands (hselect : selectRow w = some op) (hlen : payload.length = payloadLength w) :
    encode (operands w payload op) = .packet w payload := by
  obtain ⟨hnew, hupdate, hupdate1, hdigest, hduplicate, herase⟩ := selects_iff w
  rw [selectRow_eq_some_iff] at hselect
  cases op with
  | new =>
    obtain ⟨hop, hs, hrsv, himm⟩ := hnew.mp (by simpa [opRows] using hselect)
    rw [payload_eq_nil hlen (by simp [hop])]
    exact congrArg (Encoded.packet · []) (assembleWord_eq_of_fields hop hs hrsv (fieldImm_eq_low himm))
  | update =>
    obtain ⟨hop, hs, hrsv⟩ := hupdate.mp (by simpa [opRows] using hselect)
    have himm : fieldImm w = BitVec.ofNat 16 payload.length := by simp [hlen, payloadLength, hop]
    exact congrArg (Encoded.packet · payload) (assembleWord_eq_of_fields hop hs hrsv himm)
  | update1 =>
    obtain ⟨hop, hs, hrsv, himm⟩ := hupdate1.mp (by simpa [opRows] using hselect)
    rw [payload_eq_nil hlen (by simp [hop])]
    exact congrArg (Encoded.packet · []) (assembleWord_eq_of_fields hop hs hrsv (fieldImm_eq_low himm))
  | digest =>
    obtain ⟨hop, hs, hrsv, himm⟩ := hdigest.mp (by simpa [opRows] using hselect)
    rw [payload_eq_nil hlen (by simp [hop])]
    exact congrArg (Encoded.packet · []) (assembleWord_eq_of_fields hop hs hrsv himm)
  | duplicate =>
    obtain ⟨hop, hrsv, himm⟩ := hduplicate.mp (by simpa [opRows] using hselect)
    rw [payload_eq_nil hlen (by simp [hop])]
    exact congrArg (Encoded.packet · []) (assembleWord_eq_of_fields hop rfl hrsv himm)
  | erase =>
    obtain ⟨hop, hs, hrsv, himm⟩ := herase.mp (by simpa [opRows] using hselect)
    rw [payload_eq_nil hlen (by simp [hop])]
    exact congrArg (Encoded.packet · []) (assembleWord_eq_of_fields hop hs hrsv himm)

/-- The payload of a framed UPDATE is of legal length (R64); the other operands are bounded by their types. -/
theorem operands_wf (hlen : payload.length = payloadLength w) (op : HostOp) : (operands w payload op).wf = true := by
  cases op with
  | update => exact decide_eq_true (hlen ▸ payloadLength_le_nmax w)
  | _ => rfl

/-- Settles O2: the row that decoded the packet assembled its operands from it. -/
theorem decodedPacketReencodes : Obligations.DecodedPacketReencodes := by
  intro w payload i hdecode
  obtain ⟨op, hselect, hlen, rfl⟩ := decodePacket_eq_instr_iff.mp hdecode
  exact ⟨operands_wf hlen op, isCommand_of_decodePacket hdecode, encode_operands hselect hlen⟩

/-! ### Listed words -/

/-- The longest UPDATE (95_test_vectors.md V11). -/
theorem decodePacket_longest_update {data : List Byte} (h : data.length = 65535) :
    decodePacket 0x2100FFFF data = .instr (.update 1 data) := by
  have hselect : selectRow 0x2100FFFF = some .update := by decide
  have hframed : payloadLength 0x2100FFFF = 65535 := by decide
  exact decodePacket_eq_instr_iff.mpr ⟨.update, hselect, h.trans hframed.symm, rfl⟩

/-- Settles O4: each closed packet is evaluated; the longest UPDATE holds for any payload. -/
theorem listedWordsDecode : Obligations.ListedWordsDecode := by
  refine ⟨?_, ?_, ?_, fun data h => decodePacket_longest_update h, ?_, ?_, ?_, ?_, ?_, ?_, rfl, rfl⟩
  all_goals decide

end Sys2Proof
end

section
/-! What a step does with the packet it takes: how much of the input it consumes, what it answers, and the two
steps whose instruction is not in the packet, the refused word and the core transaction (30_encoding.md R65, R66,
R68, R72). -/

namespace Sys2Proof.Machine

variable {s t : State} {i : Instr} {w : Word} {payload rest : List Byte}

/-! ### Consumption -/

/-- The framing of R65, with shift and mask. -/
theorem payloadLength_eq_shift_mask (w : Word) :
    payloadLength w = if w >>> 28 = 2#32 then (w &&& 0xFFFF#32).toNat else 0 := by
  have hop : fieldOp w = 2#4 ↔ w >>> 28 = 2#32 := by
    simp only [← BitVec.toNat_inj, fieldOp, BitVec.extractLsb'_toNat, BitVec.toNat_ushiftRight,
      BitVec.toNat_ofNat, Nat.shiftRight_eq_div_pow]
    have := w.isLt
    omega
  have himm : (fieldImm w).toNat = (w &&& 0xFFFF#32).toNat := by
    rw [fieldImm, BitVec.extractLsb'_toNat, BitVec.toNat_and]
    exact (Nat.and_two_pow_sub_one_eq_mod w.toNat 16).symm
  simp only [payloadLength, hop, himm]

/-- The step that takes a packet and answers has accepted it and ended the command or the refused word. -/
theorem endsCommand_of_step (h : TakesPacket s)
    (hframe : framePacket s.cfg.wordOrder s.input = .packet w payload rest) (hstep : step s = .next t) :
    EndsCommand (s.accept rest) t := by
  cases hdecode : decodePacket w payload with
  | instr i =>
    rw [step_eq_exec_accept h hframe hdecode] at hstep
    exact (effect_of_exec hstep).endsCommand (isCommand_of_decodePacket hdecode)
  | reject r =>
    obtain ⟨st, hraise⟩ := raiseIllegal_eq_raise (s.accept rest)
    rw [step_eq_raiseIllegal_accept h hframe hdecode, hraise] at hstep
    cases hstep
    exact State.respond_endsCommand _ st []

/-- Settles O10: a framed packet is the front of the input, and the end of the command leaves the rest. -/
theorem packetIsConsumedWhole : Obligations.PacketIsConsumedWhole := by
  intro s t w payload rest htakes hframe
  obtain ⟨hinput, hlen⟩ := framePacket_eq_packet hframe
  exact ⟨hinput, hlen.trans (payloadLength_eq_shift_mask w), fun hstep =>
    (endsCommand_of_step htakes hframe hstep).input⟩

/-! ### Responses -/

/-- A check that fires names an error. -/
theorem refusesUse_ne_some_ok (s : State) (c : BitVec 4) : s.refusesUse c ≠ some .ok := by
  simp only [State.refusesUse, State.checkFault, State.checkCtx, State.checkErased, firstFailing_cons,
    firstFailing_nil]
  repeat' split
  all_goals simp

/-- DIGEST answers `DL` bytes with OK, no byte with another status (R66). -/
theorem execDigest_response {c : BitVec 4} (h : execDigest c s = .next t) :
    ∃ r, t.out = s.out ++ [r] ∧
      ((r.status = .ok ∧ ∃ row, s.slotRow? c.toNat = some row ∧ r.digest.length = row.dl) ∨
        (r.status ≠ .ok ∧ r.digest = [])) := by
  rcases execDigest_cases h with ⟨st, hst, rfl⟩ | ⟨-, row, hrow, rfl⟩
  · exact ⟨_, rfl, .inr ⟨fun hok : st = .ok => refusesUse_ne_some_ok s c (hok ▸ hst), rfl⟩⟩
  · rcases finishDigest_cases row (s.snapshot c.toNat) with ⟨bytes, he, hdl⟩ | he | he <;> rw [he]
    · exact ⟨_, rfl, .inl ⟨rfl, row, hrow, hdl⟩⟩
    · exact ⟨_, rfl, .inr ⟨by simp, rfl⟩⟩
    · exact ⟨_, rfl, .inr ⟨by simp, rfl⟩⟩

/-- A command other than DIGEST answers no digest bytes (R66). -/
theorem Effect.response_of_ne_digest (h : Effect s i t) (hi : i.isCommand = true) (hne : ∀ c, i ≠ .digest c) :
    ∃ st, t.out = s.out ++ [{ status := st, digest := [] }] := by
  cases h with
  | refuse st => exact ⟨st, rfl⟩
  | write => exact ⟨.ok, rfl⟩
  | abort => exact ⟨.fInvariant, rfl⟩
  | digest => exact absurd rfl (hne _)
  | transaction hport => simp [hi] at hport

/-- A packet that does not carry DIGEST is answered without digest bytes, legal or not. -/
theorem response_of_step_of_ne_digest (h : TakesPacket s)
    (hframe : framePacket s.cfg.wordOrder s.input = .packet w payload rest)
    (hne : ∀ c, decodePacket w payload ≠ .instr (.digest c)) (hstep : step s = .next t) :
    ∃ st, t.out = s.out ++ [{ status := st, digest := [] }] := by
  cases hdecode : decodePacket w payload with
  | instr i =>
    rw [step_eq_exec_accept h hframe hdecode] at hstep
    have hi : ∀ c, i ≠ .digest c := fun c hc => hne c (hc ▸ hdecode)
    exact (effect_of_exec hstep).response_of_ne_digest (isCommand_of_decodePacket hdecode) hi
  | reject r =>
    obtain ⟨st, hraise⟩ := raiseIllegal_eq_raise (s.accept rest)
    rw [step_eq_raiseIllegal_accept h hframe hdecode, hraise] at hstep
    cases hstep
    exact ⟨st, rfl⟩

/-- Settles O11: the packet carries DIGEST, or its one response has no digest bytes. -/
theorem oneResponsePerPacket : Obligations.OneResponsePerPacket := by
  intro s t w payload rest htakes hframe hstep
  split
  next c hdecode =>
    rw [step_eq_exec_accept htakes hframe hdecode] at hstep
    obtain ⟨r, hout, ⟨hok, row, hrow, hdl⟩ | ⟨herr, hnil⟩⟩ := execDigest_response hstep
    · have hrow : s.slotRow? c.toNat = some row := hrow
      exact ⟨r, hout, by simp [hok, hrow, hdl]⟩
    · exact ⟨r, hout, by simp [herr, hnil]⟩
  next hne =>
    obtain ⟨st, hout⟩ := response_of_step_of_ne_digest htakes hframe hne hstep
    exact ⟨_, hout, rfl⟩

/-! ### The refused word and the core transaction -/

/-- Settles O12: a word that matches no row does not decode, and without a latched fault it is refused on the word
alone. -/
theorem illegalWordIsRefused : Obligations.IllegalWordIsRefused := by
  intro s w payload rest htakes hfault hframe hnone
  have hraise : (s.accept rest).raiseIllegal = (s.accept rest).raise .eIllegal := by
    simp [State.raiseIllegal, State.checkFault, firstFailing_cons, hfault]
  have hstep := step_eq_raiseIllegal_accept htakes hframe (decodePacket_of_no_match hnone payload)
  rw [hraise] at hstep
  exact ⟨_, hstep, State.raise_refuses _ .eIllegal⟩

/-- What the core port drives is run before the input, with the port idle again. -/
theorem fetch_of_coreReq (hrst : s.rst = false) (h : decodeTransaction s.coreReq = .instr i) :
    fetch s = .run i { s with coreReq := CoreRequest.idle } := by
  simp [fetch, hrst, h]

/-- Settles O8: the driven request is fetched, and the step runs what is fetched. -/
theorem stepServesCoreTransaction : Obligations.StepServesCoreTransaction := fun _ _ hrst hdecode =>
  step_of_fetch_run (fetch_of_coreReq hrst hdecode)

end Sys2Proof.Machine
end

section
/-! Feeding a slot: what a sequence of updates comes to, and the pseudo-instructions UPDATEL and HASH that are made of
them (30_encoding.md R71, 40_update.md R87, R88, 41_digest_padding.md R114). -/

namespace Sys2Proof.Machine

variable {s t u : State} {i : Instr} {c : BitVec 4} {row : AlgRecord}

/-! ### Whole blocks and what is left over -/

/-- The bytes after the last whole block. -/
def leftover (row : AlgRecord) (data : List Byte) : List Byte := data.drop (data.length / row.b * row.b)

@[simp] theorem length_leftover (row : AlgRecord) (data : List Byte) :
    (leftover row data).length = data.length % row.b := by
  rw [leftover, List.length_drop]
  have := Nat.div_add_mod' data.length row.b
  omega

/-- The whole blocks of `x ++ y` are those of `x`, then those of what `x` leaves over with `y`. -/
theorem div_length_append (hb : 0 < row.b) (x y : List Byte) :
    (x ++ y).length / row.b = x.length / row.b + (leftover row x ++ y).length / row.b := by
  have hx := Nat.div_add_mod' x.length row.b
  have hlen : (x ++ y).length = (leftover row x ++ y).length + x.length / row.b * row.b := by
    simp only [List.length_append, length_leftover]
    omega
  rw [hlen, Nat.add_mul_div_right _ _ hb, Nat.add_comm]

theorem append_eq_blocks_append_leftover (row : AlgRecord) (x y : List Byte) :
    x ++ y = x.take (x.length / row.b * row.b) ++ (leftover row x ++ y) := by
  rw [← List.append_assoc, leftover, List.take_append_drop]

theorem length_take_blocks (row : AlgRecord) (x : List Byte) :
    (x.take (x.length / row.b * row.b)).length = x.length / row.b * row.b := by
  rw [List.length_take, Nat.min_eq_left (Nat.div_mul_le_self ..)]

/-- Folding a string is folding its front and going on with what the front leaves over (R87). -/
theorem foldAll_append (hb : 0 < row.b) (cs : Nat) (x y : List Byte) :
    foldAll row cs (x ++ y) = foldAll row (foldAll row cs x) (leftover row x ++ y) := by
  rw [foldAll, div_length_append hb, append_eq_blocks_append_leftover row x y,
    foldBlocks_append _ _ _ _ _ (length_take_blocks row x), foldBlocks_take _ _ _ (Nat.div_mul_le_self ..)]
  rfl

theorem leftover_append (hb : 0 < row.b) (x y : List Byte) :
    leftover row (x ++ y) = leftover row (leftover row x ++ y) := by
  rw [leftover, div_length_append hb, Nat.add_mul, append_eq_blocks_append_leftover row x y, ← List.drop_drop,
    List.drop_left' (length_take_blocks row x)]
  rfl

theorem foldAll_of_lt {cs : Nat} {data : List Byte} (h : data.length < row.b) : foldAll row cs data = cs := by
  rw [foldAll, Nat.div_eq_of_lt h, foldBlocks_zero]

theorem leftover_of_lt {data : List Byte} (h : data.length < row.b) : leftover row data = data := by
  rw [leftover, Nat.div_eq_of_lt h, Nat.zero_mul, List.drop_zero]

/-! ### Padding sees the message length modulo the block length -/

theorem mdlPad_mod (row : AlgRecord) (u n : Nat) : mdlPad row (u % row.b) n = mdlPad row u n := by
  have hmod : (u % row.b + 1 + row.pol.lfw) % row.b = (u + 1 + row.pol.lfw) % row.b := by
    simp only [Nat.add_assoc, Nat.mod_add_mod]
  rw [mdlPad, hmod, mdlPad]

theorem md2Pad_mod (row : AlgRecord) (u : Nat) : md2Pad row (u % row.b) = md2Pad row u := by
  simp only [md2Pad, Nat.mod_mod]

theorem spongePad_mod (row : AlgRecord) (u : Nat) : spongePad row (u % row.b) = spongePad row u := by
  simp only [spongePad, Nat.mod_mod]

/-- Padding what is left over of a message, on the core state its whole blocks come to, is padding the message
(R114). -/
theorem paddedState_leftover (hb : 0 < row.b) (cs n : Nat) (msg : List Byte) :
    paddedState row (foldAll row cs msg) n (leftover row msg) = paddedState row cs n msg := by
  unfold paddedState
  cases row.pol.kind with
  | mdl => simp only [length_leftover, mdlPad_mod, ← foldAll_append hb]
  | md2 => simp only [length_leftover, md2Pad_mod, ← foldAll_append hb]
  | sponge => simp only [length_leftover, spongePad_mod, ← foldAll_append hb]

/-! ### What a slot has absorbed -/

/-- Slot `y` is slot `x` after absorbing `msg`, up to stale bytes: the closed form of R87. -/
structure Absorbs (row : AlgRecord) (x : Slot) (msg : List Byte) (y : Slot) : Prop where
  tag : y.tag = x.tag
  alg : y.alg = x.alg
  tl : y.tl = x.tl + msg.length
  cs : y.cs = foldAll row x.cs (x.pending ++ msg)
  pending : y.pending = leftover row (x.pending ++ msg)
  fc : y.fc = (x.pending ++ msg).length % row.b

theorem ActiveSlot.length_pending {cfg : Config} {x : Slot} (h : ActiveSlot cfg x row) : x.pending.length = x.fc := by
  rw [Slot.pending, List.length_take, h.pb_length]
  exact Nat.min_eq_left (h.fc_lt.le.trans h.b_le)

theorem ActiveSlot.absorbs_nil {cfg : Config} {x : Slot} (h : ActiveSlot cfg x row) : Absorbs row x [] x := by
  have hlt : (x.pending ++ []).length < row.b := by simpa [h.length_pending] using h.fc_lt
  exact {
    tag := rfl
    alg := rfl
    tl := rfl
    cs := (foldAll_of_lt hlt).symm
    pending := by rw [leftover_of_lt hlt, List.append_nil]
    fc := by rw [Nat.mod_eq_of_lt hlt, List.append_nil, h.length_pending] }

theorem ActiveSlot.absorb_absorbs {cfg : Config} {x : Slot} (h : ActiveSlot cfg x row) (data : List Byte) :
    ∃ y, Machine.absorb row x data = some y ∧ Absorbs row x data y := by
  have hlen : (x.pending ++ data).length = x.fc + data.length := by rw [List.length_append, h.length_pending]
  obtain ⟨y, he, htag, halg, hfc, htl, hcs, hpending, -⟩ :=
    absorb_closed_form (row.b_pos h.wf) h.fc_lt (h.pb_length ▸ h.b_le) data
  rw [← hlen] at hfc hcs hpending
  exact ⟨y, he, htag, halg, htl, hcs, hpending, hfc⟩

/-- Absorbing two messages one after the other is absorbing both (R88). -/
theorem Absorbs.trans (hb : 0 < row.b) {x y z : Slot} {m n : List Byte} (h : Absorbs row x m y)
    (h' : Absorbs row y n z) : Absorbs row x (m ++ n) z where
  tag := h'.tag.trans h.tag
  alg := h'.alg.trans h.alg
  tl := by rw [h'.tl, h.tl, List.length_append, Nat.add_assoc]
  cs := by rw [h'.cs, h.cs, h.pending, ← List.append_assoc, foldAll_append hb _ (x.pending ++ m)]
  pending := by rw [h'.pending, h.pending, ← List.append_assoc, leftover_append hb (x.pending ++ m)]
  fc := by
    rw [h'.fc, h.pending, ← List.append_assoc, List.length_append, length_leftover, Nat.mod_add_mod,
      ← List.length_append]

/-- What a slot has absorbed fixes its logical state. -/
theorem Absorbs.sameLogical {x y z : Slot} {m : List Byte} (h : Absorbs row x m y) (h' : Absorbs row x m z) :
    SameLogical y z where
  tag := h.tag.trans h'.tag.symm
  alg := h.alg.trans h'.alg.symm
  cs := h.cs.trans h'.cs.symm
  pending := h.pending.trans h'.pending.symm
  fc := h.fc.trans h'.fc.symm
  tl := h.tl.trans h'.tl.symm

/-! ### Runs of commands on one slot -/

theorem execAll_cons_of_next {is : List Instr} (h : exec i s = .next t) : execAll (i :: is) s = execAll is t := by
  simp [execAll, h]

theorem execAll_append_of_next {is is' : List Instr} (h : execAll is s = .next t) :
    execAll (is ++ is') s = execAll is' t := by
  induction is generalizing s with
  | nil => cases h; rfl
  | cons i is ih =>
    cases hexec : exec i s with
    | next s' =>
      rw [execAll_cons_of_next hexec] at h
      rw [List.cons_append, execAll_cons_of_next hexec, ih h]
    | fault f => simp [execAll, hexec] at h
    | refused r => simp [execAll, hexec] at h

/-- The response of a command that succeeds and answers no digest. -/
def okResponse : Response := { status := .ok, digest := [] }

/-- A run of commands on slot `c` has answered `rs`, changed no other slot and nothing else, and kept the
invariants. -/
structure RanOn (c : BitVec 4) (s t : State) (rs : List Response) : Prop where
  out : t.out = s.out ++ rs
  frame : WritesOnlySlot c.toNat s t
  consistent : t.consistent = true

theorem WritesOnlySlot.refl (x : Nat) (s : State) : WritesOnlySlot x s s :=
  ⟨⟨rfl, fun _ _ => rfl⟩, rfl, ⟨rfl, rfl, rfl, rfl, rfl, rfl, rfl⟩⟩

theorem SameRest.trans (h : SameRest s t) (h' : SameRest t u) : SameRest s u where
  fault := h'.fault.trans h.fault
  cfg := h'.cfg.trans h.cfg
  input := h'.input.trans h.input
  rst := h'.rst.trans h.rst
  coreReq := h'.coreReq.trans h.coreReq
  coreReply := h'.coreReply.trans h.coreReply
  freeIx := h'.freeIx.trans h.freeIx

theorem WritesOnlySlot.trans {x : Nat} (h : WritesOnlySlot x s t) (h' : WritesOnlySlot x t u) :
    WritesOnlySlot x s u where
  others := ⟨h'.others.count.trans h.others.count, fun y hy => (h'.others.slots y hy).trans (h.others.slots y hy)⟩
  scratch := h'.scratch.trans h.scratch
  rest := h.rest.trans h'.rest

theorem RanOn.refl (hs : s.consistent = true) (c : BitVec 4) : RanOn c s s [] :=
  ⟨(List.append_nil _).symm, .refl _ s, hs⟩

theorem RanOn.trans {rs rs' : List Response} (h : RanOn c s t rs) (h' : RanOn c t u rs') :
    RanOn c s u (rs ++ rs') where
  out := by rw [h'.out, h.out, List.append_assoc]
  frame := h.frame.trans h'.frame
  consistent := h'.consistent

/-- A slot that stays Active through a run on it stays usable. -/
theorem RanOn.usable {rs : List Response} (h : RanOn c s t rs) (hc : Usable s c)
    (htag : (t.slot c.toNat).tag = (s.slot c.toNat).tag) : Usable t c := by
  obtain ⟨hfault, hlt, hactive⟩ := hc
  exact ⟨h.frame.rest.fault.trans hfault, h.frame.rest.cfg ▸ hlt, htag.trans hactive⟩

theorem RanOn.slotRow_eq {rs : List Response} (h : RanOn c s t rs)
    (halg : (t.slot c.toNat).alg = (s.slot c.toNat).alg) : t.slotRow? c.toNat = s.slotRow? c.toNat := by
  rw [State.slotRow?, h.frame.rest.cfg, halg, State.slotRow?]

theorem lt_length_ctx (hs : s.consistent = true) (hc : c.toNat < s.cfg.nctx) : c.toNat < s.ctx.length :=
  (State.consistent_iff.mp hs).2.1 ▸ hc

theorem refusesUse_of_usable (hc : Usable s c) : s.refusesUse c = none := by
  obtain ⟨hfault, hlt, htag⟩ := hc
  exact State.refusesUse_eq_none.mpr ⟨hfault, hlt, by simp [htag]⟩

/-- A command that writes slot `c` and succeeds is a run on it of one response. -/
theorem ranOn_of_exec_write {sl : Slot} (hs : s.consistent = true)
    (hexec : exec i s = .next ((s.setSlot c.toNat sl).respond .ok [])) :
    RanOn c s ((s.setSlot c.toNat sl).respond .ok []) [okResponse] :=
  ⟨rfl, s.setSlot_respond_frame _ sl .ok [], (effect_of_exec hexec).consistent hs⟩

/-- NEW on an Erased slot succeeds and writes the fresh Hasher, which can be used (43_lifecycle.md R141). -/
theorem exec_new_of_erased {alg : BitVec 8} (hs : s.consistent = true) (hfault : s.fault = false)
    (hlt : c.toNat < s.cfg.nctx) (hrow : s.cfg.row? alg = some row) (htag : (s.slot c.toNat).tag = .erased) :
    ∃ t, exec (.new c alg) s = .next t ∧ RanOn c s t [okResponse] ∧
      t.slot c.toNat = freshSlot row alg (s.slot c.toNat) ∧ Usable t c ∧ t.slotRow? c.toNat = some row := by
  have hpass : s.refusesNew c alg = none :=
    State.refusesNew_eq_none.mpr ⟨hfault, hlt, by simp [Config.defines, hrow], by simp [htag]⟩
  have hexec : exec (.new c alg) s =
      .next ((s.setSlot c.toNat (freshSlot row alg (s.slot c.toNat))).respond .ok []) := by
    simp [exec, execNew, hpass, hrow]
  have hslot : ((s.setSlot c.toNat (freshSlot row alg (s.slot c.toNat))).respond .ok []).slot c.toNat =
      freshSlot row alg (s.slot c.toNat) := State.slot_setSlot_same (lt_length_ctx hs hlt)
  refine ⟨_, hexec, ranOn_of_exec_write hs hexec, hslot, ⟨hfault, hlt, ?_⟩, ?_⟩
  · rw [hslot]
    rfl
  · rw [State.slotRow?, hslot]
    exact hrow

/-- Feeding a usable slot succeeds and absorbs the bytes (40_update.md R81, R84). -/
theorem exec_feed_of_usable (hs : s.consistent = true) (hc : Usable s c) (hrow : s.slotRow? c.toNat = some row)
    (f : Feed) :
    ∃ t, exec (f.on c) s = .next t ∧ RanOn c s t [okResponse] ∧
      Absorbs row (s.slot c.toNat) f.data (t.slot c.toNat) := by
  have ⟨_, hlt, htag⟩ := hc
  obtain ⟨sl, habsorb, habsorbs⟩ := (State.consistent_activeSlot hs hrow htag).absorb_absorbs f.data
  have hupdate : updateWith c f.data s = .next ((s.setSlot c.toNat sl).respond .ok []) := by
    simp [updateWith, refusesUse_of_usable hc, hrow, habsorb]
  have hexec : exec (f.on c) s = .next ((s.setSlot c.toNat sl).respond .ok []) := by
    cases f <;> exact hupdate
  have hslot : ((s.setSlot c.toNat sl).respond .ok []).slot c.toNat = sl :=
    State.slot_setSlot_same (lt_length_ctx hs hlt)
  exact ⟨_, hexec, ranOn_of_exec_write hs hexec, hslot.symm ▸ habsorbs⟩

/-- DIGEST of a usable slot answers the response of its logical state and changes nothing else (41_digest_padding.md
R96). -/
theorem exec_digest_of_usable (hs : s.consistent = true) (hc : Usable s c) (hrow : s.slotRow? c.toNat = some row) :
    ∃ t, exec (.digest c) s = .next t ∧ RanOn c s t [digestResponse row (s.slot c.toNat)] ∧
      t.slot c.toNat = s.slot c.toNat := by
  have ⟨_, _, htag⟩ := hc
  have hexec : exec (.digest c) s = .next (finishDigest row (s.snapshot c.toNat)) := by
    simp [exec, execDigest, refusesUse_of_usable hc, hrow]
  have hkept := (effect_of_exec hexec).consistent hs
  rw [finishDigest_snapshot (State.consistent_activeSlot hs hrow htag)] at hexec hkept
  obtain ⟨-, -, -, hscratch⟩ := State.consistent_iff.mp hs
  exact ⟨_, hexec, {
    out := rfl
    frame := ⟨⟨rfl, fun _ _ => rfl⟩, hscratch.symm, ⟨rfl, rfl, rfl, rfl, rfl, rfl, rfl⟩⟩
    consistent := hkept }, rfl⟩

/-- ERASE of a usable slot succeeds and leaves the canonical erased slot (43_lifecycle.md R148). -/
theorem exec_erase_of_usable (hs : s.consistent = true) (hc : Usable s c) :
    ∃ t, exec (.erase c) s = .next t ∧ RanOn c s t [okResponse] ∧
      t.slot c.toNat = Slot.canonical s.cfg.bmax := by
  have ⟨_, hlt, _⟩ := hc
  have hexec : exec (.erase c) s =
      .next ((s.setSlot c.toNat (Slot.canonical s.cfg.bmax)).respond .ok []) := by
    simp [exec, execErase, refusesUse_of_usable hc]
  exact ⟨_, hexec, ranOn_of_exec_write hs hexec, State.slot_setSlot_same (lt_length_ctx hs hlt)⟩

/-- Feeding a slot piece by piece answers OK for each piece and absorbs the message they make (R88). -/
theorem execAll_feeds (hs : s.consistent = true) (hc : Usable s c) (hrow : s.slotRow? c.toNat = some row)
    (feeds : List Feed) :
    ∃ t, execAll (feeds.map (Feed.on c)) s = .next t ∧ RanOn c s t (List.replicate feeds.length okResponse) ∧
      Absorbs row (s.slot c.toNat) (messageOf feeds) (t.slot c.toNat) := by
  induction feeds generalizing s with
  | nil =>
    have ⟨_, _, htag⟩ := hc
    exact ⟨s, rfl, .refl hs c, (State.consistent_activeSlot hs hrow htag).absorbs_nil⟩
  | cons f feeds ih =>
    have ⟨_, _, htag⟩ := hc
    have hb := AlgRecord.b_pos (State.consistent_activeSlot hs hrow htag).wf
    obtain ⟨t, hexec, hran, habsorbs⟩ := exec_feed_of_usable hs hc hrow f
    obtain ⟨u, hrest, hran', habsorbs'⟩ :=
      ih hran.consistent (hran.usable hc habsorbs.tag) ((hran.slotRow_eq habsorbs.alg).trans hrow)
    exact ⟨u, (execAll_cons_of_next hexec).trans hrest, hran.trans hran', habsorbs.trans hb habsorbs'⟩

/-! ### The pieces of UPDATEL -/

@[simp] theorem splitPieces_nil (fuel : Nat) : splitPieces fuel [] = [] := by cases fuel <;> rfl

/-- With fuel for each byte, data that is not empty is cut after `NMAX` bytes and the rest cut on. -/
theorem splitPieces_of_ne_nil {fuel : Nat} {data : List Byte} (h : data ≠ []) :
    splitPieces (fuel + 1) data = data.take nmax :: splitPieces fuel (data.drop nmax) := by
  cases data with
  | nil => exact absurd rfl h
  | cons b bs => rfl

/-- The rest after a piece needs less fuel. -/
theorem length_drop_nmax_le {fuel : Nat} {data : List Byte} (h : data ≠ []) (hfuel : data.length ≤ fuel + 1) :
    (data.drop nmax).length ≤ fuel := by
  have := List.length_pos_iff.mpr h
  rw [List.length_drop, nmax]
  omega

theorem flatten_splitPieces {fuel : Nat} {data : List Byte} (hfuel : data.length ≤ fuel) :
    (splitPieces fuel data).flatten = data := by
  induction fuel generalizing data with
  | zero => rw [List.eq_nil_of_length_eq_zero (Nat.le_zero.mp hfuel)]; rfl
  | succ fuel ih =>
    by_cases h : data = []
    · simp [h]
    · rw [splitPieces_of_ne_nil h, List.flatten_cons, ih (length_drop_nmax_le h hfuel), List.take_append_drop]

theorem length_splitPieces {fuel : Nat} {data : List Byte} (hfuel : data.length ≤ fuel) :
    (splitPieces fuel data).length = data.length / 65535 + (if data.length % 65535 = 0 then 0 else 1) := by
  induction fuel generalizing data with
  | zero => rw [List.eq_nil_of_length_eq_zero (Nat.le_zero.mp hfuel)]; rfl
  | succ fuel ih =>
    by_cases h : data = []
    · simp [h]
    · have hpos := List.length_pos_iff.mpr h
      rw [splitPieces_of_ne_nil h, List.length_cons, ih (length_drop_nmax_le h hfuel), List.length_drop, nmax]
      split <;> split <;> omega

theorem length_le_of_mem_splitPieces {fuel : Nat} {data piece : List Byte} (h : piece ∈ splitPieces fuel data) :
    piece.length ≤ nmax := by
  induction fuel generalizing data with
  | zero => cases h
  | succ fuel ih =>
    by_cases hd : data = []
    · simp [hd] at h
    · rw [splitPieces_of_ne_nil hd, List.mem_cons] at h
      rcases h with rfl | h
      · exact List.length_take_le ..
      · exact ih h

/-- Piece number `k` is the `k`-th run of `NMAX` bytes. -/
theorem getElem?_splitPieces {fuel k : Nat} {data : List Byte} (h : k < (splitPieces fuel data).length) :
    (splitPieces fuel data)[k]? = some ((data.drop (k * 65535)).take 65535) := by
  induction fuel generalizing data k with
  | zero => cases h
  | succ fuel ih =>
    by_cases hd : data = []
    · simp [hd] at h
    · rw [splitPieces_of_ne_nil hd] at h ⊢
      cases k with
      | zero => simp [nmax]
      | succ k =>
        rw [List.getElem?_cons_succ, ih (by simpa using h), List.drop_drop, nmax, Nat.succ_mul, Nat.add_comm]

/-! ### UPDATEL -/

/-- The pieces of UPDATEL, as feeds. -/
def updateLFeeds (data : List Byte) : List Feed := (splitPieces data.length data).map .bytes

theorem expandUpdateL_eq_feeds (c : BitVec 4) (data : List Byte) :
    expandUpdateL c data = (updateLFeeds data).map (Feed.on c) := by
  rw [expandUpdateL, updateLFeeds, List.map_map]
  rfl

theorem messageOf_updateLFeeds (data : List Byte) : messageOf (updateLFeeds data) = data := by
  rw [messageOf, updateLFeeds, List.map_map]
  exact (congrArg List.flatten (List.map_id _)).trans (flatten_splitPieces le_rfl)

/-- UPDATEL on a usable slot answers OK for each piece and absorbs all the data. -/
theorem execAll_expandUpdateL (hs : s.consistent = true) (hc : Usable s c) (hrow : s.slotRow? c.toNat = some row)
    (data : List Byte) :
    ∃ t n, execAll (expandUpdateL c data) s = .next t ∧ RanOn c s t (List.replicate n okResponse) ∧
      Absorbs row (s.slot c.toNat) data (t.slot c.toNat) := by
  obtain ⟨t, hexec, hran, habsorbs⟩ := execAll_feeds hs hc hrow (updateLFeeds data)
  rw [messageOf_updateLFeeds] at habsorbs
  exact ⟨t, _, expandUpdateL_eq_feeds c data ▸ hexec, hran, habsorbs⟩

/-- Settles O42: the pieces are consecutive runs of the data, so what they feed is what one update feeds. -/
theorem updateLIsOneUnboundedUpdate : Obligations.UpdateLIsOneUnboundedUpdate := by
  intro s c data hs hc
  have ⟨_, _, htag⟩ := hc
  obtain ⟨row, hrow, -⟩ := State.consistent_usable hs htag
  obtain ⟨s1, _, hall, -, habsorbs⟩ := execAll_expandUpdateL hs hc hrow data
  obtain ⟨s2, hone, -, habsorbs'⟩ := exec_feed_of_usable hs hc hrow (.bytes data)
  refine ⟨?_, fun k hk => ?_, fun i hi => ?_, s1, s2, hall, hone, habsorbs.sameLogical habsorbs'⟩
  · simp only [Pseudo.expand, expandUpdateL, List.length_map, length_splitPieces le_rfl]
  · simp only [Pseudo.expand, expandUpdateL, List.length_map] at hk
    simp only [Pseudo.expand, expandUpdateL, List.getElem?_map, getElem?_splitPieces hk, Option.map_some]
  · obtain ⟨piece, hpiece, rfl⟩ := List.mem_map.mp hi
    exact decide_eq_true (length_le_of_mem_splitPieces hpiece)

/-! ### HASH -/

/-- A slot that has absorbed a message from a fresh Hasher answers DIGEST with the reference digest (R114). -/
theorem Absorbs.digestResponse_eq {alg : BitVec 8} {old y : Slot} {msg : List Byte} (hb : 0 < row.b)
    (h : Absorbs row (freshSlot row alg old) msg y) (hshort : tooLong row msg.length = false) :
    digestResponse row y = { status := .ok, digest := referenceDigest row msg } := by
  have htl : y.tl = msg.length := h.tl.trans (Nat.zero_add _)
  have hcs : y.cs = foldAll row row.iv msg := h.cs
  have hpending : y.pending = leftover row msg := h.pending
  rw [digestResponse, htl, hshort, hcs, hpending, paddedState_leftover hb, referenceDigest]
  rfl

/-- HASH on an Erased slot: NEW, the pieces, DIGEST and ERASE each run on the one slot. -/
theorem execAll_hash {alg : BitVec 8} {data : List Byte} (hs : s.consistent = true) (hfault : s.fault = false)
    (hlt : c.toNat < s.cfg.nctx) (hrow : s.cfg.row? alg = some row) (htag : (s.slot c.toNat).tag = .erased)
    (hshort : tooLong row data.length = false) :
    ∃ t n, execAll (Pseudo.hash c alg data).expand s = .next t ∧
      RanOn c s t (List.replicate n okResponse ++
        [{ status := .ok, digest := referenceDigest row data }, okResponse]) ∧
      t.slot c.toNat = Slot.canonical s.cfg.bmax := by
  obtain ⟨s1, hnew, hran1, hfresh, huse1, hrow1⟩ := exec_new_of_erased hs hfault hlt hrow htag
  obtain ⟨s2, n, hfeed, hran2, habsorbs⟩ := execAll_expandUpdateL hran1.consistent huse1 hrow1 data
  have huse2 : Usable s2 c := hran2.usable huse1 habsorbs.tag
  have hrow2 : s2.slotRow? c.toNat = some row := (hran2.slotRow_eq habsorbs.alg).trans hrow1
  obtain ⟨s3, hdigest, hran3, hsame⟩ := exec_digest_of_usable hran2.consistent huse2 hrow2
  have huse3 : Usable s3 c := hran3.usable huse2 (congrArg Slot.tag hsame)
  obtain ⟨t, herase, hran4, hcanonical⟩ := exec_erase_of_usable hran3.consistent huse3
  have hexec : execAll (Pseudo.hash c alg data).expand s = .next t :=
    calc execAll (.new c alg :: (expandUpdateL c data ++ [.digest c, .erase c])) s
      _ = execAll (expandUpdateL c data ++ [.digest c, .erase c]) s1 := execAll_cons_of_next hnew
      _ = execAll [.digest c, .erase c] s2 := execAll_append_of_next hfeed
      _ = execAll [.erase c] s3 := execAll_cons_of_next hdigest
      _ = .next t := execAll_cons_of_next herase
  obtain ⟨hc, -⟩ := State.consistent_iff.mp hs
  have hb : 0 < row.b := AlgRecord.b_pos (Config.row?_wf hc hrow).1
  rw [hfresh] at habsorbs
  rw [habsorbs.digestResponse_eq hb hshort] at hran3
  have hbefore := hran1.trans (hran2.trans hran3)
  rw [hbefore.frame.rest.cfg] at hcanonical
  refine ⟨t, n + 1, hexec, ?_, hcanonical⟩
  simpa [List.replicate_succ] using hbefore.trans hran4

/-- Settles O59: the run answers the reference digest of what the slot absorbed, and the slot ends canonical, as it
began. -/
theorem hashIsOneShotAndLeavesTheSlotErased : Obligations.HashIsOneShotAndLeavesTheSlotErased := by
  intro s c alg row data hs hfault hlt hrow htag hshort
  obtain ⟨t, n, hexec, hran, hcanonical⟩ := execAll_hash hs hfault hlt hrow htag hshort
  obtain ⟨⟨hcount, hothers⟩, hscratch, hrest⟩ := hran.frame
  have hkept : t.slot c.toNat = s.slot c.toNat :=
    hcanonical.trans (Slot.inv_erased (State.consistent_slot hs c.toNat) htag).symm
  have hslots (x : Nat) : t.slot x = s.slot x := by
    by_cases hx : x = c.toNat
    · rw [hx, hkept]
    · exact hothers x hx
  exact ⟨t, List.replicate n okResponse, hexec, by rw [hran.out, List.append_assoc]; rfl,
    fun r hr => List.eq_of_mem_replicate hr, hcanonical, ⟨hcount, hslots⟩, hscratch, hrest⟩

end Sys2Proof.Machine
end

section
/-! The refusals of the commands that use a slot, the absence of the invariant violation, and the growth of `TL`
(40_update.md R81, R84 to R86, 41_digest_padding.md R96, R113, 43_lifecycle.md R148, 60_exceptions.md R180). -/

namespace Sys2Proof.Machine

variable {s t : State} {i : Instr} {c : BitVec 4}

/-! ### The refusals of a use -/

/-- The status UPDATE, UPDATE1, DIGEST and ERASE refuse with, in the order of their checks (R180). -/
theorem State.refusesUse_eq (s : State) (c : BitVec 4) :
    s.refusesUse c =
      if s.fault = true then some .fInvariant
      else if s.cfg.nctx ≤ c.toNat then some .eBadCtx
      else if (s.slot c.toNat).tag = .erased then some .eErased
      else none := by
  simp [State.refusesUse, State.checkFault, State.checkCtx, State.checkErased, State.isErased, firstFailing_cons]

/-- A command that uses a slot and whose check fires ends with the status of that check and changes nothing. -/
theorem exec_use_of_refusesUse {st : Status} {data : List Byte} {byte : Byte}
    (hi : i ∈ [Instr.update c data, Instr.update1 c byte, Instr.digest c, Instr.erase c])
    (h : s.refusesUse c = some st) : ∃ t, exec i s = .next t ∧ Refuses s t st := by
  refine ⟨s.raise st, ?_, s.raise_refuses st⟩
  simp only [List.mem_cons, List.not_mem_nil, or_false] at hi
  rcases hi with rfl | rfl | rfl | rfl
  · simp [exec, execUpdate, updateWith, h]
  · simp [exec, execUpdate1, updateWith, h]
  · simp [exec, execDigest, h]
  · simp [exec, execErase, h]

/-- Settles O27: the first check that fires decides, and the four commands share their checks. -/
theorem useRefusalsInOrder : Obligations.UseRefusalsInOrder := by
  intro s c data byte i hi
  have hrefusal := s.refusesUse_eq c
  split
  next hfault => exact exec_use_of_refusesUse hi (by simpa [hfault] using hrefusal)
  next hfault =>
    split
    next hctx => exact exec_use_of_refusesUse hi (by simpa [hfault, hctx] using hrefusal)
    next hctx =>
      intro herased
      exact exec_use_of_refusesUse hi (by simpa [hfault, hctx, herased] using hrefusal)

/-! ### No command violates the block contract -/

/-- The status of the first failing check belongs to a check that fires. -/
theorem mem_of_firstFailing_eq_some {checks : List (Bool × Status)} {st : Status}
    (h : firstFailing checks = some st) : (true, st) ∈ checks := by
  induction checks with
  | nil => cases h
  | cons check rest ih =>
    obtain ⟨fires, st'⟩ := check
    rw [firstFailing_cons] at h
    split at h
    next hfires => cases h; simp [hfires]
    next => exact List.mem_cons_of_mem _ (ih h)

/-- Without a latched fault no check of a use answers F_INVARIANT; only check 1 does (R180). -/
theorem refusesUse_ne_fInvariant {st : Status} (hfault : s.fault = false) (h : s.refusesUse c = some st) :
    st ≠ .fInvariant := by
  rintro rfl
  simpa [State.checkFault, State.checkCtx, State.checkErased, hfault] using mem_of_firstFailing_eq_some h

theorem refusesNew_ne_fInvariant {st : Status} {alg : BitVec 8} (hfault : s.fault = false)
    (h : s.refusesNew c alg = some st) : st ≠ .fInvariant := by
  rintro rfl
  simpa [State.checkFault, State.checkCtx, State.checkAlg, State.checkBusy, hfault] using
    mem_of_firstFailing_eq_some h

theorem refusesDuplicate_ne_fInvariant {st : Status} {d src : BitVec 4} (hfault : s.fault = false)
    (h : s.refusesDuplicate d src = some st) : st ≠ .fInvariant := by
  rintro rfl
  simpa [State.checkFault, State.checkCtx, State.checkErased, State.checkBusy, hfault] using
    mem_of_firstFailing_eq_some h

/-- The command has answered without an invariant violation: no fault is latched, the status is another. -/
structure EndsWithoutViolation (s t : State) : Prop where
  fault : t.fault = false
  out : ∃ r, t.out = s.out ++ [r] ∧ r.status ≠ .fInvariant

theorem State.raise_endsWithoutViolation {st : Status} (hfault : s.fault = false) (hst : st ≠ .fInvariant) :
    EndsWithoutViolation s (s.raise st) :=
  ⟨hfault, _, rfl, hst⟩

theorem State.setSlot_endsWithoutViolation (hfault : s.fault = false) (x : Nat) (sl : Slot) :
    EndsWithoutViolation s ((s.setSlot x sl).respond .ok []) :=
  ⟨hfault, _, rfl, by simp⟩

theorem digestResponse_ne_fInvariant (row : AlgRecord) (sl : Slot) :
    (digestResponse row sl).status ≠ .fInvariant := by
  unfold digestResponse
  split <;> simp

/-- UPDATE and UPDATE1 hand `compress` whole blocks: the slot they feed meets the invariants (R86). -/
theorem updateWith_endsWithoutViolation {data : List Byte} (hs : s.consistent = true) (hfault : s.fault = false)
    (h : updateWith c data s = .next t) : EndsWithoutViolation s t := by
  rcases updateWith_cases h with ⟨st, hst, rfl⟩ | ⟨hpass, row, hrow, hend⟩
  · exact State.raise_endsWithoutViolation hfault (refusesUse_ne_fInvariant hfault hst)
  · rcases hend with ⟨sl, -, rfl⟩ | ⟨hviolation, -⟩
    · exact State.setSlot_endsWithoutViolation hfault _ sl
    · obtain ⟨-, -, htag⟩ := State.refusesUse_eq_none.mp hpass
      obtain ⟨sl, habsorb, -⟩ := (State.consistent_activeSlot hs hrow (Tag.ne_erased.mp htag)).absorb data
      simp [habsorb] at hviolation

/-- So do the padding paths of DIGEST (R113). -/
theorem execDigest_endsWithoutViolation (hs : s.consistent = true) (hfault : s.fault = false)
    (h : execDigest c s = .next t) : EndsWithoutViolation s t := by
  rcases execDigest_cases h with ⟨st, hst, rfl⟩ | ⟨hpass, row, hrow, rfl⟩
  · exact State.raise_endsWithoutViolation hfault (refusesUse_ne_fInvariant hfault hst)
  · obtain ⟨-, -, htag⟩ := State.refusesUse_eq_none.mp hpass
    rw [finishDigest_snapshot (State.consistent_activeSlot hs hrow (Tag.ne_erased.mp htag))]
    exact ⟨hfault, _, rfl, digestResponse_ne_fInvariant row _⟩

/-- Settles O19, command by command: a refusal has a status of its own, and what passes the checks never aborts. -/
theorem noCommandViolatesTheBlockContract : Obligations.NoCommandViolatesTheBlockContract := by
  intro s t i hs hfault hi hexec
  suffices h : EndsWithoutViolation s t from ⟨h.fault, h.out⟩
  cases i with
  | new c alg =>
    rcases execNew_cases hexec with ⟨st, hst, rfl⟩ | ⟨-, row, -, rfl⟩
    · exact State.raise_endsWithoutViolation hfault (refusesNew_ne_fInvariant hfault hst)
    · exact State.setSlot_endsWithoutViolation hfault _ _
  | update c data => exact updateWith_endsWithoutViolation hs hfault hexec
  | update1 c byte => exact updateWith_endsWithoutViolation hs hfault hexec
  | digest c => exact execDigest_endsWithoutViolation hs hfault hexec
  | duplicate d src =>
    rcases execDuplicate_cases hexec with ⟨st, hst, rfl⟩ | ⟨-, rfl⟩
    · exact State.raise_endsWithoutViolation hfault (refusesDuplicate_ne_fInvariant hfault hst)
    · exact State.setSlot_endsWithoutViolation hfault _ _
  | erase c =>
    rcases execErase_cases hexec with ⟨st, hst, rfl⟩ | ⟨-, rfl⟩
    · exact State.raise_endsWithoutViolation hfault (refusesUse_ne_fInvariant hfault hst)
    · exact State.setSlot_endsWithoutViolation hfault _ _
  | compress => cases hi
  | finalize => cases hi

/-! ### An Active slot that stays Active -/

/-- DUPLICATE writes an Erased slot only, so it changes no Active one (43_lifecycle.md R144). -/
theorem slot_execDuplicate_of_active {d src : BitVec 4} (h : execDuplicate d src s = .next t) {x : Nat}
    (hx : (s.slot x).tag = .active) : t.slot x = s.slot x := by
  rcases execDuplicate_cases h with ⟨st, -, rfl⟩ | ⟨hpass, rfl⟩
  · rfl
  · obtain ⟨-, -, -, -, hdest⟩ := State.refusesDuplicate_eq_none.mp hpass
    exact State.slot_setSlot_other fun he => hdest (he ▸ hx)

/-- What an instruction can have done to an Active slot that stays Active: nothing, or it fed the slot, or it
aborted while feeding it. -/
inductive FedOrKept (s : State) (x : Nat) : Slot → Prop where
  | kept : FedOrKept s x (s.slot x)
  | fed {row : AlgRecord} {data : List Byte} {sl : Slot} (habsorb : absorb row (s.slot x) data = some sl) :
      FedOrKept s x sl
  | aborted (k : Nat) : FedOrKept s x ((s.slot x).partlyWritten s.cfg.bmax k)

theorem FedOrKept.of_eq {x : Nat} {sl : Slot} (h : sl = s.slot x) : FedOrKept s x sl := h ▸ .kept

/-- A write that leaves an Active slot Active fed it; NEW does not write an Active slot, ERASE makes it Erased, and
DUPLICATE is set aside. -/
theorem SlotWrite.fedOrKept {x : Nat} {sl : Slot} (h : SlotWrite s i x sl) (hi : ∀ d src, i ≠ .duplicate d src)
    (hs : (s.slot x).tag = .active) (hsl : sl.tag = .active) : FedOrKept s x sl := by
  cases h with
  | new _ htag => simp [htag] at hs
  | feed _ _ habsorb => exact .fed habsorb
  | duplicate => exact absurd rfl (hi _ _)
  | erase => cases hsl

theorem fedOrKept_of_exec (hexec : exec i s = .next t) {x : Nat} (hs : (s.slot x).tag = .active)
    (ht : (t.slot x).tag = .active) : FedOrKept s x (t.slot x) := by
  by_cases hi : ∃ d src, i = .duplicate d src
  · obtain ⟨d, src, rfl⟩ := hi
    exact .of_eq (slot_execDuplicate_of_active hexec hs)
  · cases effect_of_exec hexec with
    | refuse => exact .kept
    | @write _ y sl hw =>
      rw [State.slot_respond] at ht ⊢
      rcases State.slot_setSlot_cases s y sl x with ⟨rfl, he⟩ | he
      · rw [he] at ht ⊢
        exact hw.fedOrKept (fun d src hd => hi ⟨d, src, hd⟩) hs ht
      · exact .of_eq he
    | @abort c =>
      rcases State.slot_setSlot_cases s c.toNat ((s.slot c.toNat).partlyWritten s.cfg.bmax s.freeIx) x with
        ⟨rfl, he⟩ | he
      · exact (congrArg (FedOrKept s c.toNat) he).mpr (.aborted s.freeIx)
      · exact .of_eq he
    | digest => exact .of_eq (by simp)
    | transaction => exact .kept

/-- Feeding adds to `TL`; an abort leaves it as it was (R85). -/
theorem FedOrKept.tl_le {x : Nat} {sl : Slot} (h : FedOrKept s x sl) : (s.slot x).tl ≤ sl.tl := by
  cases h with
  | kept => exact le_rfl
  | fed habsorb =>
    obtain ⟨-, -, htl, -⟩ := absorb_keeps habsorb
    exact htl ▸ Nat.le_add_right ..
  | aborted => exact le_rfl

/-- Settles O34: an Active slot that stays Active is kept, fed, or aborted while fed. -/
theorem totalLengthNeverDecreases : Obligations.TotalLengthNeverDecreases :=
  fun _ _ _ _ hexec hs ht => (fedOrKept_of_exec hexec hs ht).tl_le

end Sys2Proof.Machine
end

section
/-! UPDATE and UPDATE1: the closed form, what one byte does, the corner cases of `absorb`, and that the cut of a
message into pieces does not show (40_update.md R81 to R84, R87, R88). -/

namespace Sys2Proof.Machine

variable {s t : State} {c : BitVec 4} {row : AlgRecord} {sl : Slot} {data : List Byte}

/-! ### Chunking -/

/-- Settles O41: both ways absorb the same message, so they come to one logical state, which is all DIGEST reads. -/
theorem chunkingInvariance : Obligations.ChunkingInvariance := by
  intro s c feeds hs hc
  have ⟨_, _, htag⟩ := hc
  obtain ⟨row, hrow, -⟩ := State.consistent_usable hs htag
  obtain ⟨s1, hpieces, hran1, habsorbs1⟩ := execAll_feeds hs hc hrow feeds
  obtain ⟨s2, hone, hran2, habsorbs2⟩ := exec_feed_of_usable hs hc hrow (.bytes (messageOf feeds))
  have hlogical : SameLogical (s1.slot c.toNat) (s2.slot c.toNat) := habsorbs1.sameLogical habsorbs2
  obtain ⟨t1, hdigest1, hran1', -⟩ := exec_digest_of_usable hran1.consistent (hran1.usable hc habsorbs1.tag)
    ((hran1.slotRow_eq habsorbs1.alg).trans hrow)
  obtain ⟨t2, hdigest2, hran2', -⟩ := exec_digest_of_usable hran2.consistent (hran2.usable hc habsorbs2.tag)
    ((hran2.slotRow_eq habsorbs2.alg).trans hrow)
  rw [← digestResponse_congr row hlogical] at hran2'
  exact ⟨s1, s2, t1, t2, _, hpieces, hone, hlogical, hdigest1, hran1'.out, hdigest2, hran2'.out⟩

/-! ### Feeding a usable slot, field by field -/

/-- What `absorb` makes of a usable slot is what UPDATE or UPDATE1 leaves there, with OK and no other change. -/
theorem exec_feed_of_absorb (hs : s.consistent = true) (hc : Usable s c) (hrow : s.slotRow? c.toNat = some row)
    {f : Feed} (habsorb : absorb row (s.slot c.toNat) f.data = some sl) :
    ∃ t, exec (f.on c) s = .next t ∧ Answers s t .ok [] ∧ WritesOnlySlot c.toNat s t ∧ t.slot c.toNat = sl := by
  have ⟨_, hlt, _⟩ := hc
  have hupdate : updateWith c f.data s = .next ((s.setSlot c.toNat sl).respond .ok []) := by
    simp [updateWith, refusesUse_of_usable hc, hrow, habsorb]
  have hexec : exec (f.on c) s = .next ((s.setSlot c.toNat sl).respond .ok []) := by
    cases f <;> exact hupdate
  exact ⟨_, hexec, ⟨rfl, rfl⟩, s.setSlot_respond_frame _ sl .ok [],
    State.slot_setSlot_same (lt_length_ctx hs hlt)⟩

/-- Settles O38: UPDATE leaves in the slot what the closed form of `absorb` says. -/
theorem updateClosedForm : Obligations.UpdateClosedForm := by
  intro s c data row hs hc hrow
  have ⟨_, _, htag⟩ := hc
  have hslot := State.consistent_activeSlot hs hrow htag
  obtain ⟨sl, habsorb, htag', halg, hfc, htl, hcs, hpending, hlength, hrest⟩ :=
    absorb_closed_form (row.b_pos hslot.wf) hslot.fc_lt (hslot.pb_length ▸ hslot.b_le) data
  obtain ⟨t, hexec, hanswers, hframe, rfl⟩ := exec_feed_of_absorb hs hc hrow (f := .bytes data) habsorb
  exact ⟨t, hexec, hanswers, hframe, htag'.trans htag, halg, hfc, htl, hcs, hpending, hlength, hrest⟩

/-! ### `absorb` on its corner cases (R83) -/

/-- An empty buffer takes no part in step 1. -/
theorem absorbFill_of_fc_eq_zero (h0 : sl.fc = 0) : absorbFill row sl data = some (sl, data) := by
  simp [absorbFill, h0]

/-- Less than the free room stays pending, whether the buffer was empty or not. -/
theorem absorb_of_lt (hlt : sl.fc + data.length < row.b) :
    absorb row sl data =
      some { sl with
        pb := writeAt sl.pb sl.fc data
        fc := sl.fc + data.length
        tl := sl.tl + data.length } := by
  have hb : 0 < row.b := by omega
  by_cases h0 : sl.fc = 0
  · rw [absorb_of_fill hb (absorbFill_of_fc_eq_zero h0), Nat.div_eq_of_lt (show data.length < row.b by omega)]
    simp
  · have hpos : 0 < sl.fc := Nat.pos_of_ne_zero h0
    have hmin : min (row.b - sl.fc) data.length = data.length := by omega
    have hfill : absorbFill row sl data =
        some ({ sl with pb := writeAt sl.pb sl.fc data, fc := sl.fc + data.length }, []) := by
      simp [absorbFill, hpos, hmin, hlt.ne]
    rw [absorb_of_fill hb hfill]
    simp

/-- Exactly the free room of a non-empty buffer makes one block, compressed at once. -/
theorem absorb_of_eq (h0 : 0 < sl.fc) (hlen : row.b ≤ sl.pb.length) (heq : sl.fc + data.length = row.b) :
    absorb row sl data =
      some { sl with
        pb := writeAt sl.pb sl.fc data
        fc := 0
        tl := sl.tl + data.length
        cs := row.compressBlock sl.cs (sl.pending ++ data) } := by
  have hb : 0 < row.b := by omega
  have hmin : min (row.b - sl.fc) data.length = data.length := by omega
  have hblock : (sl.pending ++ data).length = row.b := by
    rw [List.length_append, Slot.pending, List.length_take]
    omega
  have harch : archBuffer row (writeAt sl.pb sl.fc data) = sl.pending ++ data := by
    rw [archBuffer, writeAt_eq (by omega)]
    exact List.take_left' hblock
  have hfill : absorbFill row sl data =
      some ({ sl with
        pb := writeAt sl.pb sl.fc data
        fc := 0
        cs := row.compressBlock sl.cs (sl.pending ++ data) }, []) := by
    simp [absorbFill, h0, hmin, heq, harch, compress_one _ hb hblock]
  rw [absorb_of_fill hb hfill]
  simp

/-- Whole blocks on an empty buffer are compressed from the input, past the buffer. -/
theorem absorb_of_blocks (hb : 0 < row.b) (h0 : sl.fc = 0) (hblocks : data.length % row.b = 0) :
    absorb row sl data =
      some { sl with tl := sl.tl + data.length, cs := foldAll row sl.cs data } := by
  have hnil : data.drop (data.length / row.b * row.b) = [] :=
    List.length_eq_zero_iff.mp ((length_leftover row data).trans hblocks)
  rw [absorb_of_fill hb (absorbFill_of_fc_eq_zero h0), hnil]
  simp [foldAll]

/-! ### UPDATE1 -/

/-- The slot after one byte, as R84 reduces it. -/
def slotAfterByte (row : AlgRecord) (sl : Slot) (byte : Byte) : Slot :=
  if sl.fc + 1 = row.b then
    { sl with
      pb := if row.b = 1 then sl.pb else sl.pb.set sl.fc byte
      fc := 0
      tl := sl.tl + 1
      cs := row.compressBlock sl.cs (sl.pending ++ [byte]) }
  else { sl with pb := sl.pb.set sl.fc byte, fc := sl.fc + 1, tl := sl.tl + 1 }

theorem absorb_byte (hf : sl.fc < row.b) (hlen : row.b ≤ sl.pb.length) (byte : Byte) :
    absorb row sl [byte] = some (slotAfterByte row sl byte) := by
  by_cases hfull : sl.fc + 1 = row.b
  · by_cases h0 : sl.fc = 0
    · have hone : row.b = 1 := by omega
      have hfold : foldAll row sl.cs [byte] = row.compressBlock sl.cs [byte] := by
        simp [foldAll, hone, foldBlocks_one]
      rw [absorb_of_blocks (by omega) h0 (by simp [hone]), slotAfterByte, if_pos hfull, hfold]
      simp [hone, h0, Slot.pending]
    · have hne : row.b ≠ 1 := by omega
      rw [absorb_of_eq (data := [byte]) (Nat.pos_of_ne_zero h0) hlen hfull, slotAfterByte, if_pos hfull, if_neg hne]
      rfl
  · rw [absorb_of_lt (show sl.fc + 1 < row.b by omega), slotAfterByte, if_neg hfull]
    rfl

/-- Settles O39: UPDATE1 leaves what absorbing one byte makes of the slot. -/
theorem update1AbsorbsOneByte : Obligations.Update1AbsorbsOneByte := by
  intro s c byte row hs hc hrow
  have ⟨_, _, htag⟩ := hc
  have hslot := State.consistent_activeSlot hs hrow htag
  exact exec_feed_of_absorb hs hc hrow (f := .byte byte)
    (absorb_byte hslot.fc_lt (hslot.pb_length ▸ hslot.b_le) byte)

/-! ### The corner cases of UPDATE -/

/-- An UPDATE of a usable slot that answers has left there what `absorb` makes of it, and no other change. -/
theorem slot_of_exec_update (hs : s.consistent = true) (hc : Usable s c) (hrow : s.slotRow? c.toNat = some row)
    (hexec : exec (.update c data) s = .next t) (habsorb : absorb row (s.slot c.toNat) data = some sl) :
    t.slot c.toNat = sl ∧ SameOtherSlots c.toNat s t := by
  obtain ⟨t', hexec', -, hframe, hslot⟩ := exec_feed_of_absorb hs hc hrow (f := .bytes data) habsorb
  obtain rfl : t' = t := by
    have h := hexec'.symm.trans hexec
    cases h
    rfl
  exact ⟨hslot, hframe.others⟩

/-- No other slot changed, and neither did this one. -/
theorem SameOtherSlots.sameSlots {x : Nat} (h : SameOtherSlots x s t) (hx : t.slot x = s.slot x) :
    SameSlots s t where
  count := h.count
  slots y := by
    by_cases hy : y = x
    · rw [hy, hx]
    · exact h.slots y hy

/-- Settles O40: each row of R83 is one of the three corner cases of `absorb`. -/
theorem updateCornerCases : Obligations.UpdateCornerCases := by
  intro s t c data row hs hc hrow hexec
  have ⟨_, _, htag⟩ := hc
  have hslot := State.consistent_activeSlot hs hrow htag
  have hf := hslot.fc_lt
  have hlen : row.b ≤ (s.slot c.toNat).pb.length := hslot.pb_length ▸ hslot.b_le
  have hresult {sl : Slot} (habsorb : absorb row (s.slot c.toNat) data = some sl) :=
    slot_of_exec_update hs hc hrow hexec habsorb
  refine ⟨fun hnone => ?_, fun _ hpart => ?_, fun h0 hroom => ?_, fun h0 _ hblocks => ?_, fun h0 hless => ?_⟩
  · obtain ⟨he, hothers⟩ := hresult (absorb_of_lt (by omega))
    rw [List.eq_nil_of_length_eq_zero hnone] at he
    exact hothers.sameSlots he
  · obtain ⟨he, -⟩ := hresult (absorb_of_lt hpart)
    rw [he]
    exact ⟨rfl, rfl, writeAt_eq (by omega)⟩
  · obtain ⟨he, -⟩ := hresult (absorb_of_eq h0 hlen hroom)
    rw [he]
    exact ⟨rfl, rfl⟩
  · obtain ⟨he, -⟩ := hresult (absorb_of_blocks (row.b_pos hslot.wf) h0 hblocks)
    rw [he]
    exact ⟨rfl, h0, rfl⟩
  · obtain ⟨he, -⟩ := hresult (absorb_of_lt (by omega))
    have hwrite : writeAt (s.slot c.toNat).pb 0 data = data ++ (s.slot c.toNat).pb.drop data.length := by
      rw [writeAt_eq (by omega), List.take_zero, List.nil_append, Nat.zero_add]
    rw [he, h0]
    exact ⟨rfl, Nat.zero_add _, hwrite⟩

end Sys2Proof.Machine
end

section
/-! The command DIGEST as one response (41_digest_padding.md R96, R98, R103, R114): it changes nothing but the
responses and the phase, so no later command can tell that it ran, and what it answers is the digest of the message. -/

namespace Sys2Proof.Machine

variable {s t u : State} {i : Instr} {c : BitVec 4} {row : AlgRecord}

/-! ### DIGEST from any state -/

/-- Settles O45: of the four ways DIGEST ends, only the abort latches `FAULT`, and none writes a slot. -/
theorem digestChangesNoSlot : Obligations.DigestChangesNoSlot := by
  intro s t c hexec
  rcases execDigest_cases hexec with ⟨st, -, rfl⟩ | ⟨-, row, -, rfl⟩
  · exact ⟨⟨rfl, fun _ => rfl⟩, rfl, rfl, rfl, rfl, rfl, .inl rfl⟩
  · rcases finishDigest_cases row (s.snapshot c.toNat) with ⟨bytes, hend, -⟩ | hend | hend <;> rw [hend]
    · exact ⟨⟨rfl, fun _ => rfl⟩, rfl, rfl, rfl, rfl, rfl, .inl rfl⟩
    · exact ⟨⟨rfl, fun _ => rfl⟩, rfl, rfl, rfl, rfl, rfl, .inl rfl⟩
    · exact ⟨⟨rfl, fun _ => rfl⟩, rfl, rfl, rfl, rfl, rfl, .inr rfl⟩

/-! ### DIGEST from a consistent state -/

/-- In a consistent state `S` is zero already, so the snapshot and the discarding of it leave nothing behind. -/
theorem discardScratch_snapshot_respond (hs : s.consistent = true) (x : Nat) (st : Status) (digest : List Byte) :
    (s.snapshot x).discardScratch.respond st digest = s.respond st digest := by
  obtain ⟨-, -, -, hscratch⟩ := State.consistent_iff.mp hs
  simp [State.respond, State.discardScratch, State.snapshot, ← hscratch]

/-- DIGEST of a usable slot is its response and nothing else (41_digest_padding.md R96). -/
theorem exec_digest_eq_respond (hs : s.consistent = true) (hc : Usable s c)
    (hrow : s.slotRow? c.toNat = some row) :
    exec (.digest c) s = .next (s.respond (digestResponse row (s.slot c.toNat)).status
      (digestResponse row (s.slot c.toNat)).digest) := by
  have ⟨_, _, htag⟩ := hc
  have hexec : exec (.digest c) s = .next (finishDigest row (s.snapshot c.toNat)) := by
    simp [exec, execDigest, refusesUse_of_usable hc, hrow]
  rw [hexec, finishDigest_snapshot (State.consistent_activeSlot hs hrow htag),
    discardScratch_snapshot_respond hs]

/-- Every DIGEST that answers is a response and nothing else, also one that is refused (60_exceptions.md R172). -/
theorem exists_respond_of_exec_digest (hs : s.consistent = true) (hexec : exec (.digest c) s = .next t) :
    ∃ st digest, t = s.respond st digest := by
  rcases execDigest_cases hexec with ⟨st, -, rfl⟩ | ⟨hpass, row, hrow, rfl⟩
  · exact ⟨st, [], rfl⟩
  · obtain ⟨-, -, htag⟩ := State.refusesUse_eq_none.mp hpass
    have hslot := State.consistent_activeSlot hs hrow (Tag.ne_erased.mp htag)
    exact ⟨_, _, (finishDigest_snapshot hslot).trans (discardScratch_snapshot_respond hs _ _ _)⟩

theorem digestResponse_of_short {sl : Slot} (h : tooLong row sl.tl = false) :
    digestResponse row sl = { status := .ok, digest := row.output (paddedState row sl.cs sl.tl sl.pending) } := by
  simp [digestResponse, h]

theorem digestResponse_of_tooLong {sl : Slot} (h : tooLong row sl.tl = true) :
    digestResponse row sl = { status := .eMsgTooLong, digest := [] } := by
  simp [digestResponse, h]

/-- Settles O43: the response is the digest of the pending bytes padded, and a response has the whole frame. -/
theorem digestAnswersThePaddedHash : Obligations.DigestAnswersThePaddedHash := by
  intro s c row hs hc hrow hshort
  have hexec := exec_digest_eq_respond hs hc hrow
  rw [digestResponse_of_short hshort] at hexec
  obtain ⟨-, -, -, hscratch⟩ := State.consistent_iff.mp hs
  exact ⟨_, hexec, ⟨rfl, rfl⟩, ⟨rfl, fun _ => rfl⟩, hscratch, ⟨rfl, rfl, rfl, rfl, rfl, rfl, rfl⟩⟩

/-! ### A message beyond the declared maximum -/

/-- More bytes never make a message short again (R103). -/
theorem tooLong_mono {m n : Nat} (hle : m ≤ n) (h : tooLong row m = true) : tooLong row n = true := by
  unfold tooLong at h ⊢
  cases hmax : row.pol.maxBits with
  | none => simp [hmax] at h
  | some bits =>
    simp only [hmax, decide_eq_true_eq] at h ⊢
    omega

/-- DIGEST of a slot that holds too long a message refuses and changes nothing (R103). -/
theorem exec_digest_refuses_of_tooLong (hs : s.consistent = true) (hc : Usable s c)
    (hrow : s.slotRow? c.toNat = some row) (hlong : tooLong row (s.slot c.toNat).tl = true) :
    ∃ t, exec (.digest c) s = .next t ∧ Refuses s t .eMsgTooLong := by
  have hexec := exec_digest_eq_respond hs hc hrow
  rw [digestResponse_of_tooLong hlong] at hexec
  exact ⟨_, hexec, s.raise_refuses .eMsgTooLong⟩

/-- Settles O48: UPDATE succeeds and `TL` only grows, so the slot refuses DIGEST after it as before. -/
theorem tooLongStaysTooLong : Obligations.TooLongStaysTooLong := by
  intro s c data row hs hc hrow hlong
  refine ⟨exec_digest_refuses_of_tooLong hs hc hrow hlong, ?_⟩
  obtain ⟨u, hupdate, hran, habsorbs⟩ := exec_feed_of_usable hs hc hrow (.bytes data)
  have hlong' : tooLong row (u.slot c.toNat).tl = true :=
    tooLong_mono (habsorbs.tl ▸ Nat.le_add_right ..) hlong
  obtain ⟨v, hdigest, hrefuses⟩ := exec_digest_refuses_of_tooLong hran.consistent (hran.usable hc habsorbs.tag)
    ((hran.slotRow_eq habsorbs.alg).trans hrow) hlong'
  exact ⟨u, v, hupdate, ⟨hran.out, (effect_of_exec hupdate).phase_idle (.inl rfl)⟩, hdigest, hrefuses⟩

/-! ### The digest as a function of the message -/

/-- Settles O44: the slot is fresh, absorbs the message whatever the pieces, and DIGEST answers for what it has
absorbed. -/
theorem digestIsTheHashOfTheMessage : Obligations.DigestIsTheHashOfTheMessage := by
  intro s c alg row feeds hs hfault hlt hrow htag hshort
  obtain ⟨s1, hnew, hran1, hfresh, huse1, hrow1⟩ := exec_new_of_erased hs hfault hlt hrow htag
  obtain ⟨s2, hfeed, hran2, habsorbs⟩ := execAll_feeds hran1.consistent huse1 hrow1 feeds
  have hrow2 : s2.slotRow? c.toNat = some row := (hran2.slotRow_eq habsorbs.alg).trans hrow1
  obtain ⟨t, hdigest, hran3, -⟩ :=
    exec_digest_of_usable hran2.consistent (hran2.usable huse1 habsorbs.tag) hrow2
  have hexec : execAll (.new c alg :: (feeds.map (Feed.on c) ++ [.digest c])) s = .next t :=
    calc execAll (.new c alg :: (feeds.map (Feed.on c) ++ [.digest c])) s
      _ = execAll (feeds.map (Feed.on c) ++ [.digest c]) s1 := execAll_cons_of_next hnew
      _ = execAll [.digest c] s2 := execAll_append_of_next hfeed
      _ = .next t := execAll_cons_of_next hdigest
  obtain ⟨hcfg, -⟩ := State.consistent_iff.mp hs
  rw [hfresh] at habsorbs
  rw [habsorbs.digestResponse_eq (AlgRecord.b_pos (Config.row?_wf hcfg hrow).1) hshort] at hran3
  refine ⟨t, hexec, ?_⟩
  rw [(hran1.trans (hran2.trans hran3)).out, List.replicate_succ, List.append_assoc]
  rfl

/-! ### Commands read neither the responses nor the phase -/

@[simp] theorem State.refusesNew_respond (s : State) (st : Status) (digest : List Byte) (c : BitVec 4)
    (alg : BitVec 8) : (s.respond st digest).refusesNew c alg = s.refusesNew c alg := rfl

@[simp] theorem State.refusesUse_respond (s : State) (st : Status) (digest : List Byte) (c : BitVec 4) :
    (s.respond st digest).refusesUse c = s.refusesUse c := rfl

@[simp] theorem State.refusesDuplicate_respond (s : State) (st : Status) (digest : List Byte) (d src : BitVec 4) :
    (s.respond st digest).refusesDuplicate d src = s.refusesDuplicate d src := rfl

@[simp] theorem State.slotRow?_respond (s : State) (st : Status) (digest : List Byte) (x : Nat) :
    (s.respond st digest).slotRow? x = s.slotRow? x := rfl

/-- What a command comes to from `s` and what it comes to from `t` are alike: one and the same response, the same
slots, or the same refusal of a meaning. -/
inductive SameAnswer (s t : State) : Host.Outcome State Fault Refusal → Host.Outcome State Fault Refusal → Prop where
  | next {u v : State} (r : Response) (hu : u.out = s.out ++ [r]) (hv : v.out = t.out ++ [r])
      (hslots : SameSlots u v) : SameAnswer s t (.next u) (.next v)
  | refused (r : Refusal) : SameAnswer s t (.refused r) (.refused r)

section
variable (s : State) (st : Status) (digest : List Byte) (c : BitVec 4)

theorem execNew_respond_sameAnswer (alg : BitVec 8) :
    SameAnswer s (s.respond st digest) (execNew c alg s) (execNew c alg (s.respond st digest)) := by
  simp only [execNew, State.refusesNew_respond, State.respond_cfg, State.slot_respond]
  split
  · exact .next _ rfl rfl ⟨rfl, fun _ => rfl⟩
  · split
    · exact .next _ rfl rfl ⟨rfl, fun _ => rfl⟩
    · exact .next _ rfl rfl ⟨rfl, fun _ => rfl⟩

theorem updateWith_respond_sameAnswer (data : List Byte) :
    SameAnswer s (s.respond st digest) (updateWith c data s) (updateWith c data (s.respond st digest)) := by
  simp only [updateWith, State.refusesUse_respond, State.slotRow?_respond, State.slot_respond]
  split
  · exact .next _ rfl rfl ⟨rfl, fun _ => rfl⟩
  · split
    · exact .refused _
    · split
      · exact .next _ rfl rfl ⟨rfl, fun _ => rfl⟩
      · exact .next _ rfl rfl ⟨rfl, fun _ => rfl⟩

theorem execDigest_respond_sameAnswer :
    SameAnswer s (s.respond st digest) (execDigest c s) (execDigest c (s.respond st digest)) := by
  simp only [execDigest, State.refusesUse_respond, State.slotRow?_respond, finishDigest, State.snapshot_scratch,
    State.slot_respond]
  split
  · exact .next _ rfl rfl ⟨rfl, fun _ => rfl⟩
  · split
    · exact .refused _
    · split
      · exact .next _ rfl rfl ⟨rfl, fun _ => rfl⟩
      · exact .next _ rfl rfl ⟨rfl, fun _ => rfl⟩
      · exact .next _ rfl rfl ⟨rfl, fun _ => rfl⟩

theorem execDuplicate_respond_sameAnswer (src : BitVec 4) :
    SameAnswer s (s.respond st digest) (execDuplicate c src s) (execDuplicate c src (s.respond st digest)) := by
  simp only [execDuplicate, State.refusesDuplicate_respond, State.slot_respond]
  split
  · exact .next _ rfl rfl ⟨rfl, fun _ => rfl⟩
  · exact .next _ rfl rfl ⟨rfl, fun _ => rfl⟩

theorem execErase_respond_sameAnswer :
    SameAnswer s (s.respond st digest) (execErase c s) (execErase c (s.respond st digest)) := by
  simp only [execErase, State.refusesUse_respond, State.respond_cfg]
  split
  · exact .next _ rfl rfl ⟨rfl, fun _ => rfl⟩
  · exact .next _ rfl rfl ⟨rfl, fun _ => rfl⟩

end

/-- A command does the same whether or not the command before it has just responded. -/
theorem exec_respond_sameAnswer (s : State) (st : Status) (digest : List Byte) (hi : i.isCommand = true) :
    SameAnswer s (s.respond st digest) (exec i s) (exec i (s.respond st digest)) := by
  cases i with
  | new c alg => exact execNew_respond_sameAnswer s st digest c alg
  | update c data => exact updateWith_respond_sameAnswer s st digest c data
  | update1 c byte => exact updateWith_respond_sameAnswer s st digest c [byte]
  | digest c => exact execDigest_respond_sameAnswer s st digest c
  | duplicate d src => exact execDuplicate_respond_sameAnswer s st digest d src
  | erase c => exact execErase_respond_sameAnswer s st digest c
  | compress => cases hi
  | finalize => cases hi

/-- Settles O46: DIGEST leaves a response behind and nothing else, and no command reads the responses. -/
theorem digestIsInvisibleToLaterCommands : Obligations.DigestIsInvisibleToLaterCommands := by
  intro s t u c i hs hi hdigest hexec
  obtain ⟨st, digest, rfl⟩ := exists_respond_of_exec_digest hs hdigest
  have hsame := exec_respond_sameAnswer s st digest hi
  rw [hexec] at hsame
  generalize exec i (s.respond st digest) = outcome at hsame ⊢
  cases hsame with
  | @next _ v r hu hv hslots => exact ⟨v, r, rfl, hu, hv, hslots⟩

end Sys2Proof.Machine
end

section
/-! The numbers of the MDL padding: how many blocks it takes, and what its length field holds (41_digest_padding.md
R104, R109, R113, R114). -/

namespace Sys2Proof.Machine

variable {row : AlgRecord}

/-! ### The length of the padding -/

theorem length_mdlPad (row : AlgRecord) (f n : Nat) :
    (mdlPad row f n).length = 1 + (row.b - (f + 1 + row.pol.lfw) % row.b) % row.b + row.pol.lfw := by
  simp only [mdlPad, List.length_cons, List.length_append, length_zeros, length_lengthField]
  omega

/-- The pending bytes and their padding fill one block, or two when the marker and the length field do not fit
behind the pending bytes (R109). -/
theorem add_length_mdlPad {f : Nat} (hf : f < row.b) (hl : row.pol.lfw ≤ row.b) (n : Nat) :
    f + (mdlPad row f n).length = if f + 1 + row.pol.lfw ≤ row.b then row.b else 2 * row.b := by
  rw [length_mdlPad, mdl_zeros hf hl]
  split <;> omega

/-- What is longer than one block and ends on a block boundary takes two blocks at least. -/
theorem two_mul_le_of_dvd_of_lt {b m : Nat} (hdvd : b ∣ m) (hlt : b < m) : 2 * b ≤ m := by
  have hrest : b ≤ m - b := Nat.le_of_dvd (Nat.sub_pos_of_lt hlt) (Nat.dvd_sub hdvd dvd_rfl)
  omega

/-- Settles O49: any padding that ends on a block boundary fills one block at least, and two when the marker and the
length field do not fit in one. -/
theorem mdlPaddingTakesOneOrTwoBlocks : Obligations.MdlPaddingTakesOneOrTwoBlocks := by
  intro row f n hw hk hf
  obtain ⟨hl, -⟩ := Policy.wf_mdl (row.pol_wf hw) hk
  have htotal := add_length_mdlPad hf hl n
  refine ⟨htotal, fun z hz => ?_⟩
  have hdvd : row.b ∣ f + 1 + z + row.pol.lfw := Nat.dvd_of_mod_eq_zero hz
  by_cases hfit : f + 1 + row.pol.lfw ≤ row.b
  · have hone : row.b ≤ f + 1 + z + row.pol.lfw := Nat.le_of_dvd (by omega) hdvd
    rw [if_pos hfit] at htotal
    omega
  · have htwo : 2 * row.b ≤ f + 1 + z + row.pol.lfw := two_mul_le_of_dvd_of_lt hdvd (by omega)
    rw [if_neg hfit] at htotal
    omega

/-! ### The value of the length field -/

/-- Read back from its last byte, `LE(v, w)` is `v` in `w` bytes (00_scope.md R9). -/
theorem foldr_bytesLE (v w : Nat) :
    (bytesLE v w).foldr (fun b a => a * 256 + b.toNat) 0 = v % 256 ^ w := by
  induction w generalizing v with
  | zero => simp [bytesLE, Nat.mod_one]
  | succ w ih =>
    rw [bytesLE, List.foldr_cons, ih, Nat.pow_succ', Nat.mod_mul, BitVec.toNat_ofNat]
    omega

/-- Read from its first byte, so is `BE(v, w)`. -/
theorem foldl_bytesBE (v w : Nat) :
    (bytesBE v w).foldl (fun a b => a * 256 + b.toNat) 0 = v % 256 ^ w := by
  rw [bytesBE, List.foldl_reverse, foldr_bytesLE]

/-- A message within the declared maximum has a bit length that the length field holds (R103). -/
theorem bitLength_lt_of_short {tl : Nat} (hw : row.wf = true) (hk : row.pol.kind = .mdl)
    (hshort : tooLong row tl = false) : 8 * tl < 256 ^ row.pol.lfw := by
  obtain ⟨-, m, hmax, hm⟩ := Policy.wf_mdl (row.pol_wf hw) hk
  have hle : 8 * tl ≤ m := by simpa [tooLong, hmax] using hshort
  have hpow : 2 ^ (8 * row.pol.lfw) = 256 ^ row.pol.lfw := by rw [Nat.pow_mul]
  have hpos : 0 < 256 ^ row.pol.lfw := Nat.pow_pos (by decide)
  rw [fieldCapacity, hpow] at hm
  omega

/-- Settles O50: in either byte order the field reads back as the bit length, which is below its capacity. -/
theorem lengthFieldHoldsTheBitLength : Obligations.LengthFieldHoldsTheBitLength := by
  intro row tl hw hk hshort
  have hlt := bitLength_lt_of_short hw hk hshort
  refine ⟨length_lengthField row tl, ?_⟩
  unfold lengthField
  cases row.pol.lenEndian with
  | le => exact (foldr_bytesLE _ _).trans (Nat.mod_eq_of_lt hlt)
  | be => exact (foldl_bytesBE _ _).trans (Nat.mod_eq_of_lt hlt)

end Sys2Proof.Machine
end

section
/-! The padding state machine of 41_digest_padding.md R102 comes to what `finalizeDestructively` answers: each padding
phase hands `compress` the block that its path hands it, and every phase is a bounded number of transitions from IDLE. -/

namespace Sys2Proof.Machine

variable {row : AlgRecord} {bmax : Nat}

/-! ### Responses -/

/-- The response DIGEST sends for what `finalizeDestructively` answers (R96, R115). -/
def FinalResult.response : FinalResult → Response
  | .digest bytes => { status := .ok, digest := bytes }
  | .tooLong => { status := .eMsgTooLong, digest := [] }
  | .violation => { status := .fInvariant, digest := [] }

theorem finishDigest_out (row : AlgRecord) (s : State) :
    (finishDigest row s).out = s.out ++ [(finalizeDestructively row s.scratch.cs (archBuffer row s.scratch.pb)
      s.scratch.fc s.scratch.tl).response] := by
  unfold finishDigest
  generalize finalizeDestructively row s.scratch.cs _ _ _ = result
  cases result <;> rfl

/-- What is answered once a padding path has come to a core state, or to the violation (R112, R115). -/
def padResult (row : AlgRecord) : Option Nat → FinalResult
  | some cs => .digest (row.output cs)
  | none => .violation

theorem finalizeDestructively_eq_padResult (row : AlgRecord) (cs : Nat) (pb : List Byte) (fc tl : Nat) :
    finalizeDestructively row cs pb fc tl =
      if tooLong row tl = true then .tooLong else padResult row (padDispatch row cs pb fc tl) := by
  unfold finalizeDestructively padResult
  rfl

/-! ### Runs of the machine -/

/-- A DIGEST in phase `p` that has come to no result. -/
def DigestRun.running (p : Phase) (sc : Scratch) : DigestRun :=
  { phase := p, scratch := sc, result := none, sent := none }

/-- A DIGEST that has come to `result` and is about to send it. -/
def DigestRun.responding (sc : Scratch) (result : Response) : DigestRun :=
  { phase := .respond, scratch := sc, result := some result, sent := none }

/-- A DIGEST that has sent `result`: back in IDLE, with `S` zero. -/
def DigestRun.finished (bmax : Nat) (result : Response) : DigestRun :=
  { phase := .idle, scratch := Scratch.zero bmax, result := some result, sent := some result }

/-- The machine comes back to IDLE within `n` transitions, having sent `result`. -/
def EndsWithin (row : AlgRecord) (bmax n : Nat) (r : DigestRun) (result : Response) : Prop :=
  ∀ k, n ≤ k → digestIterate row bmax k r = .finished bmax result

/-- IDLE is absorbing. -/
theorem endsWithin_finished (row : AlgRecord) (bmax : Nat) (result : Response) :
    EndsWithin row bmax 0 (.finished bmax result) result := by
  intro k _
  induction k with
  | zero => rfl
  | succ k ih => exact ih (Nat.zero_le _)

/-- One transition more. -/
theorem EndsWithin.of_next {n : Nat} {r : DigestRun} {result : Response}
    (h : EndsWithin row bmax n (digestNext row bmax r) result) : EndsWithin row bmax (n + 1) r result := by
  intro k hk
  obtain ⟨j, rfl⟩ : ∃ j, k = j + 1 := ⟨k - 1, by omega⟩
  exact h j (by omega)

theorem EndsWithin.mono {m n : Nat} {r : DigestRun} {result : Response} (h : EndsWithin row bmax m r result)
    (hmn : m ≤ n) : EndsWithin row bmax n r result := fun k hk => h k (hmn.trans hk)

/-! ### From the response back to the snapshot -/

theorem endsWithin_responding (row : AlgRecord) (bmax : Nat) (sc : Scratch) (result : Response) :
    EndsWithin row bmax 1 (.responding sc result) result :=
  .of_next (endsWithin_finished row bmax result)

theorem endsWithin_gOut (row : AlgRecord) (bmax : Nat) (sc : Scratch) :
    EndsWithin row bmax 2 (.running .gOut sc) { status := .ok, digest := row.output sc.cs } :=
  .of_next (endsWithin_responding row bmax sc _)

theorem feed_of_compress_eq_some {p after : Phase} {sc : Scratch} {block : List Byte} {cs : Nat}
    (h : compress row sc.cs block = some cs) :
    (DigestRun.running p sc).feed row block after = .running after { sc with cs := cs } := by
  simp [DigestRun.feed, DigestRun.running, h]

theorem feed_of_compress_eq_none {p after : Phase} {sc : Scratch} {block : List Byte}
    (h : compress row sc.cs block = none) :
    (DigestRun.running p sc).feed row block after = .responding sc { status := .fInvariant, digest := [] } := by
  simp [DigestRun.feed, DigestRun.running, DigestRun.responding, h]

/-- The last block of a path: what `compress` makes of it goes to `OUT`, and a violation is the response (R112,
R115). -/
theorem endsWithin_of_last_block {p : Phase} {sc : Scratch} {block : List Byte}
    (hnext : digestNext row bmax (.running p sc) = (DigestRun.running p sc).feed row block .gOut) :
    EndsWithin row bmax 3 (.running p sc) (padResult row (compress row sc.cs block)).response := by
  apply EndsWithin.of_next
  rw [hnext]
  cases hcs : compress row sc.cs block with
  | some cs =>
    rw [feed_of_compress_eq_some hcs]
    exact endsWithin_gOut row bmax { sc with cs := cs }
  | none =>
    rw [feed_of_compress_eq_none hcs]
    exact (endsWithin_responding row bmax sc _).mono (by omega)

/-- The first of two blocks: what `compress` makes of it is the core state of the second, and a violation is the
response. -/
theorem endsWithin_of_first_block {p after : Phase} {sc : Scratch} {block : List Byte} {last : Nat → Option Nat}
    (hnext : digestNext row bmax (.running p sc) = (DigestRun.running p sc).feed row block after)
    (hlast : ∀ cs, EndsWithin row bmax 3 (.running after { sc with cs := cs }) (padResult row (last cs)).response) :
    EndsWithin row bmax 4 (.running p sc) (padResult row ((compress row sc.cs block).bind last)).response := by
  apply EndsWithin.of_next
  rw [hnext]
  cases hcs : compress row sc.cs block with
  | some cs =>
    rw [feed_of_compress_eq_some hcs]
    exact hlast cs
  | none =>
    rw [feed_of_compress_eq_none hcs]
    exact (endsWithin_responding row bmax sc _).mono (by omega)

theorem padSpill_eq_bind (row : AlgRecord) (cs : Nat) (pb : List Byte) (f tl : Nat) :
    padSpill row cs pb f tl =
      (compress row cs (markedBlock row pb f)).bind fun cs1 => compress row cs1 (lengthBlock row tl) := by
  unfold padSpill
  cases compress row cs (markedBlock row pb f) <;> rfl

theorem padMd2_eq_bind (row : AlgRecord) (cs : Nat) (pb : List Byte) (f : Nat) :
    padMd2 row cs pb f =
      (compress row cs (md2Block row pb f)).bind fun cs1 => compress row cs1 (row.checksum cs1) := by
  unfold padMd2
  cases compress row cs (md2Block row pb f) <;> rfl

/-- The dispatch selects the path that `padDispatch` selects (R101, R102). -/
theorem endsWithin_gDispatch (row : AlgRecord) (bmax : Nat) (sc : Scratch) :
    EndsWithin row bmax 5 (.running .gDispatch sc)
      (padResult row (padDispatch row sc.cs (archBuffer row sc.pb) sc.fc sc.tl)).response := by
  apply EndsWithin.of_next
  unfold padDispatch
  cases hk : row.pol.kind with
  | mdl =>
    by_cases hfit : fits row sc.fc = true
    · have hnext : digestNext row bmax (.running .gDispatch sc) = .running .pFit sc := by
        simp [digestNext, DigestRun.running, hk, hfit]
      simp only [hnext, hfit, if_true]
      exact (endsWithin_of_last_block rfl).mono (by omega)
    · have hnext : digestNext row bmax (.running .gDispatch sc) = .running .pSpill1 sc := by
        simp [digestNext, DigestRun.running, hk, hfit]
      simp only [hnext, hfit, padSpill_eq_bind]
      exact endsWithin_of_first_block rfl fun cs => endsWithin_of_last_block rfl
  | md2 =>
    have hnext : digestNext row bmax (.running .gDispatch sc) = .running .pMd2Pad sc := by
      simp [digestNext, DigestRun.running, hk]
    simp only [hnext, padMd2_eq_bind]
    exact endsWithin_of_first_block rfl fun cs => endsWithin_of_last_block rfl
  | sponge =>
    have hnext : digestNext row bmax (.running .gDispatch sc) = .running .pSponge sc := by
      simp [digestNext, DigestRun.running, hk]
    simp only [hnext]
    exact (endsWithin_of_last_block rfl).mono (by omega)

/-- The length check goes on to the dispatch or ends the command (R103). -/
theorem endsWithin_gCheck (row : AlgRecord) (bmax : Nat) (sc : Scratch) :
    EndsWithin row bmax 6 (.running .gCheck sc)
      (finalizeDestructively row sc.cs (archBuffer row sc.pb) sc.fc sc.tl).response := by
  apply EndsWithin.of_next
  rw [finalizeDestructively_eq_padResult]
  by_cases hlong : tooLong row sc.tl = true
  · have hnext : digestNext row bmax (.running .gCheck sc) =
        .responding sc { status := .eMsgTooLong, digest := [] } := by
      simp [digestNext, DigestRun.running, DigestRun.responding, hlong]
    rw [hnext, if_pos hlong]
    exact (endsWithin_responding row bmax sc _).mono (by omega)
  · have hnext : digestNext row bmax (.running .gCheck sc) = .running .gDispatch sc := by
      simp [digestNext, DigestRun.running, hlong]
    rw [hnext, if_neg hlong]
    exact endsWithin_gDispatch row bmax sc

/-- From the snapshot the machine comes to the response of `finalizeDestructively` on the copied slot. -/
theorem endsWithin_digestStart (row : AlgRecord) (bmax : Nat) (sl : Slot) :
    EndsWithin row bmax 7 (digestStart sl)
      (finalizeDestructively row sl.cs (archBuffer row sl.pb) sl.fc sl.tl).response :=
  .of_next (endsWithin_gCheck row bmax sl.toScratch)

/-- Settles O51: the command and the machine both send the response of `finalizeDestructively` on the snapshot. -/
theorem paddingMachineRefinesDigest : Obligations.PaddingMachineRefinesDigest := by
  intro s c row _ hc hrow
  have hexec : exec (.digest c) s = .next (finishDigest row (s.snapshot c.toNat)) := by
    simp [exec, execDigest, refusesUse_of_usable hc, hrow]
  have hmachine := endsWithin_digestStart row s.cfg.bmax (s.slot c.toNat) 7 le_rfl
  rw [hmachine]
  exact ⟨_, _, hexec, finishDigest_out row _, rfl, rfl, rfl⟩

end Sys2Proof.Machine
end

section
/-! The core port: COMPRESS as the fold of `F` over whole blocks, FINALIZE within its contract, where both stop, and
the algorithm of an Active slot (42_core_interface.md R121 to R133). -/

namespace Sys2Proof.Machine

variable {s : State} {row : AlgRecord} {a : BitVec 8} {cs : Nat} {data : List Byte}

/-! ### The algorithm of an Active slot -/

/-- Neither feeding a slot nor aborting while feeding it writes `ALG` (R133). -/
theorem FedOrKept.alg_eq {x : Nat} {sl : Slot} (h : FedOrKept s x sl) : sl.alg = (s.slot x).alg := by
  cases h with
  | kept => rfl
  | fed habsorb =>
    obtain ⟨-, halg, -⟩ := absorb_keeps habsorb
    exact halg
  | aborted => rfl

/-- Settles O33: an Active slot that stays Active is kept, fed, or aborted while fed. -/
theorem algorithmFixedWhileActive : Obligations.AlgorithmFixedWhileActive :=
  fun _ _ _ _ hexec hs ht => (fedOrKept_of_exec hexec hs ht).alg_eq

/-! ### Strings of whole blocks -/

theorem leftover_of_whole (h : data.length % row.b = 0) : leftover row data = [] :=
  List.eq_nil_of_length_eq_zero (by rw [length_leftover, h])

/-- The fold over whole blocks and what follows goes on from the fold over the blocks (R121). -/
theorem foldAll_append_of_whole (hb : 0 < row.b) (cs : Nat) {x : List Byte} (y : List Byte)
    (hx : x.length % row.b = 0) : foldAll row cs (x ++ y) = foldAll row (foldAll row cs x) y := by
  rw [foldAll_append hb, leftover_of_whole hx, List.nil_append]

theorem foldAll_block (hb : 0 < row.b) (cs : Nat) {block : List Byte} (h : block.length = row.b) :
    foldAll row cs block = row.compressBlock cs block := by
  rw [foldAll, h, Nat.div_self hb, foldBlocks_one row cs h]

theorem foldAll_flatten (hb : 0 < row.b) (cs : Nat) {blocks : List (List Byte)}
    (h : ∀ block ∈ blocks, block.length = row.b) :
    foldAll row cs blocks.flatten = blocks.foldl row.compressBlock cs := by
  induction blocks generalizing cs with
  | nil => exact foldAll_of_lt hb
  | cons block blocks ih =>
    obtain ⟨hblock, hblocks⟩ := List.forall_mem_cons.mp h
    have hwhole : block.length % row.b = 0 := by rw [hblock, Nat.mod_self]
    rw [List.flatten_cons, foldAll_append_of_whole hb cs _ hwhole, foldAll_block hb cs hblock, ih _ hblocks,
      List.foldl_cons]

theorem length_flatten_of_blocks {blocks : List (List Byte)} (h : ∀ block ∈ blocks, block.length = row.b) :
    blocks.flatten.length % row.b = 0 := by
  rw [List.length_flatten]
  refine Nat.mod_eq_zero_of_dvd (List.dvd_sum fun n hn => ?_)
  obtain ⟨block, hmem, rfl⟩ := List.mem_map.mp hn
  exact (h block hmem).symm.dvd

/-! ### COMPRESS -/

theorem compress_of_whole (cs : Nat) (h : data.length % row.b = 0) :
    compress row cs data = some (foldAll row cs data) :=
  if_pos h

theorem exec_compress_of_eq_some {cs' : Nat} (hrow : s.cfg.row? a = some row) (h : compress row cs data = some cs') :
    exec (.compress a cs data) s = .next { s with coreReply := .state cs' } := by
  simp [exec, execCompress, hrow, h]

theorem exec_compress_of_eq_none (hrow : s.cfg.row? a = some row) (h : compress row cs data = none) :
    exec (.compress a cs data) s = .next { s with fault := true, coreReply := .invariant } := by
  simp [exec, execCompress, hrow, h]

/-- Settles O52: the blocks laid end to end are whole, and their fold goes block by block. -/
theorem compressFoldsWholeBlocks : Obligations.CompressFoldsWholeBlocks := by
  intro s a cs blocks row hrow hb hblocks
  have hcompress := compress_of_whole cs (length_flatten_of_blocks hblocks)
  rw [exec_compress_of_eq_some hrow hcompress, foldAll_flatten hb cs hblocks]

/-- Settles O53: `compress` answers on whole blocks only. -/
theorem compressLatchesFaultOnPartialBlocks : Obligations.CompressLatchesFaultOnPartialBlocks :=
  fun _ _ _ _ _ hrow hpartial => exec_compress_of_eq_none hrow (compress_eq_none.mpr hpartial)

/-- Settles O54: both are facts about the fold over whole blocks. -/
theorem compressOfAConcatenation : Obligations.CompressOfAConcatenation := by
  intro row cs x y hb hx hy
  have hxy : (x ++ y).length % row.b = 0 := by
    rw [List.length_append, Nat.add_mod, hx, hy, Nat.zero_mod]
  have hnil : compress row cs [] = some cs := by
    rw [compress_of_whole cs (Nat.zero_mod _), foldAll_of_lt (data := []) hb]
  refine ⟨hnil, foldAll row cs x, compress_of_whole cs hx, ?_⟩
  rw [compress_of_whole cs hxy, compress_of_whole _ hy, foldAll_append_of_whole hb cs y hx]

/-! ### FINALIZE -/

/-- Settles O55: within its contract FINALIZE answers what `finalizeDestructively` comes to, never a violation. -/
theorem finalizeAnswersTheDigest : Obligations.FinalizeAnswersTheDigest := by
  intro s a cs fc tl pb row hrow hw hpb hfc
  have hresult := finalizeDestructively_eq hw hpb hfc cs tl
  cases hlong : tooLong row tl with
  | true => simp [exec, execFinalize, hrow, hpb, hfc, hresult, hlong]
  | false => simp [exec, execFinalize, hrow, hpb, hfc, hresult, hlong]

/-! ### Where a form stops -/

theorem exec_compress_of_undefined (hrow : s.cfg.row? a = none) (cs : Nat) (data : List Byte) :
    exec (.compress a cs data) s = .refused .algUndefined := by
  simp [exec, execCompress, hrow]

theorem exec_finalize_of_undefined (hrow : s.cfg.row? a = none) (cs fc tl : Nat) (pb : List Byte) :
    exec (.finalize a cs pb fc tl) s = .refused .algUndefined := by
  simp [exec, execFinalize, hrow]

theorem exec_finalize_of_not_contract {fc : Nat} {pb : List Byte} (hrow : s.cfg.row? a = some row)
    (h : ¬(pb.length = row.b ∧ fc < row.b)) (cs tl : Nat) :
    exec (.finalize a cs pb fc tl) s = .refused .finalizeContract := by
  simp only [exec, execFinalize, hrow, if_neg h]

theorem updateWith_of_undefined {c : BitVec 4} (hc : Usable s c) (hrow : s.slotRow? c.toNat = none)
    (data : List Byte) : updateWith c data s = .refused .algUndefined := by
  simp [updateWith, refusesUse_of_usable hc, hrow]

theorem exec_digest_of_undefined {c : BitVec 4} (hc : Usable s c) (hrow : s.slotRow? c.toNat = none) :
    exec (.digest c) s = .refused .algUndefined := by
  simp [exec, execDigest, refusesUse_of_usable hc, hrow]

/-- Settles O56: each form looks its tag up before it does anything, and FINALIZE tests its contract next. -/
theorem operandsOutsideTheTableStop : Obligations.OperandsOutsideTheTableStop := by
  refine ⟨fun s a cs fc tl bytes hrow => ?_, fun s a cs fc tl pb row hrow hout => ?_,
    fun s c data byte hc hrow => ?_⟩
  · exact ⟨exec_compress_of_undefined hrow cs bytes, exec_finalize_of_undefined hrow cs fc tl bytes⟩
  · have hcontract : ¬(pb.length = row.b ∧ fc < row.b) := by omega
    exact exec_finalize_of_not_contract hrow hcontract cs tl
  · exact ⟨updateWith_of_undefined hc hrow data, updateWith_of_undefined hc hrow [byte],
      exec_digest_of_undefined hc hrow⟩

/-! ### The TOY fixture -/

/-- Settles O57: the TOY core computes, so each listed value (R132, V10, V14, V15) is an evaluation. -/
theorem toyFixtureGivesTheListedValues : Obligations.ToyFixtureGivesTheListedValues := by
  refine ⟨?oneBlock, ?empty, ?seven, ?eight, ?fifteen⟩
  case oneBlock => decide
  case empty => decide
  case seven => decide
  case eight => decide
  case fifteen => decide

end Sys2Proof.Machine
end

section
/-! The lifecycle commands one by one (43_lifecycle.md R141 to R149): what NEW, DUPLICATE and ERASE leave when they
are accepted, the order in which NEW and DUPLICATE refuse, and what is left of a slot after ERASE. -/

namespace Sys2Proof.Machine

variable {s t : State} {i : Instr} {c d src : BitVec 4} {alg : BitVec 8}

/-! ### Accepted commands -/

/-- A command that has run on a slot with one response has answered it, at a command boundary. -/
theorem RanOn.answers {r : Response} (h : RanOn c s t [r]) (hexec : exec i s = .next t) (hi : i.isCommand = true) :
    Answers s t r.status r.digest :=
  ⟨h.out, (effect_of_exec hexec).phase_idle (.inl hi)⟩

/-- The Hasher NEW makes of the canonical erased slot has an empty buffer (R141). -/
theorem freshSlot_canonical {cfg : Config} {row : AlgRecord} (hb : row.b ≤ cfg.bmax) (alg : BitVec 8) :
    freshSlot row alg (Slot.canonical cfg.bmax) =
      { tag := .active, alg := alg, pb := zeros cfg.bmax, fc := 0, tl := 0, cs := row.iv } := by
  have hpb : writeAt (Slot.canonical cfg.bmax).pb 0 (zeros row.b) = zeros cfg.bmax := writeAt_zeros hb
  rw [freshSlot, hpb]

/-- Settles O25: an Erased slot is the canonical one, and NEW makes the fresh Hasher of it. -/
theorem newCreatesAFreshHasher : Obligations.NewCreatesAFreshHasher := by
  intro s c alg row hs hfault hlt hrow htag
  obtain ⟨t, hexec, hran, hslot, -⟩ := exec_new_of_erased hs hfault hlt hrow htag
  obtain ⟨hcfg, -⟩ := State.consistent_iff.mp hs
  obtain ⟨-, hb⟩ := Config.row?_wf hcfg hrow
  rw [Slot.inv_erased (State.consistent_slot hs c.toNat) htag, freshSlot_canonical hb] at hslot
  exact ⟨t, hexec, hran.answers hexec rfl, hran.frame, hslot⟩

/-- DUPLICATE of an Active slot into an Erased one succeeds and writes the source's fields (R144). -/
theorem exec_duplicate_of_active (hs : s.consistent = true) (hfault : s.fault = false)
    (hd : d.toNat < s.cfg.nctx) (hsrc : src.toNat < s.cfg.nctx) (hactive : (s.slot src.toNat).tag = .active)
    (herased : (s.slot d.toNat).tag = .erased) :
    ∃ t, exec (.duplicate d src) s = .next t ∧ RanOn d s t [okResponse] ∧
      t.slot d.toNat = s.slot src.toNat := by
  have hpass : s.refusesDuplicate d src = none :=
    State.refusesDuplicate_eq_none.mpr ⟨hfault, hd, hsrc, by simp [hactive], by simp [herased]⟩
  have hexec : exec (.duplicate d src) s =
      .next ((s.setSlot d.toNat (s.slot src.toNat)).respond .ok []) := by
    simp [exec, execDuplicate, hpass, copySlot_of_active hactive]
  exact ⟨_, hexec, ranOn_of_exec_write hs hexec, State.slot_setSlot_same (lt_length_ctx hs hd)⟩

/-- Settles O28: DUPLICATE runs on its destination alone and leaves the source's fields there. -/
theorem duplicateCopiesTheHasher : Obligations.DuplicateCopiesTheHasher := by
  intro s d src hs hfault hd hsrc hactive herased
  obtain ⟨t, hexec, hran, hslot⟩ := exec_duplicate_of_active hs hfault hd hsrc hactive herased
  exact ⟨t, hexec, hran.answers hexec rfl, hran.frame, hslot⟩

/-- Settles O30: the canonical erased slot is the one with every field zero. -/
theorem eraseZeroesTheSlot : Obligations.EraseZeroesTheSlot := by
  intro s c hs hc
  obtain ⟨t, hexec, hran, hslot⟩ := exec_erase_of_usable hs hc
  exact ⟨t, hexec, hran.answers hexec rfl, hran.frame, hslot⟩

/-! ### Refusals -/

/-- The status NEW refuses with, in the order of its checks (60_exceptions.md R180). -/
theorem State.refusesNew_eq (s : State) (c : BitVec 4) (alg : BitVec 8) :
    s.refusesNew c alg =
      if s.fault = true then some .fInvariant
      else if s.cfg.nctx ≤ c.toNat then some .eBadCtx
      else if s.cfg.row? alg = none then some .eBadAlg
      else if (s.slot c.toNat).tag = .active then some .eBusy
      else none := by
  simp [State.refusesNew, State.checkFault, State.checkCtx, State.checkAlg, State.checkBusy, State.isActive,
    Config.defines, firstFailing_cons]

/-- The status DUPLICATE refuses with: either index, then the source, then the destination (R144, R180). -/
theorem State.refusesDuplicate_eq (s : State) (d src : BitVec 4) :
    s.refusesDuplicate d src =
      if s.fault = true then some .fInvariant
      else if s.cfg.nctx ≤ d.toNat ∨ s.cfg.nctx ≤ src.toNat then some .eBadCtx
      else if (s.slot src.toNat).tag = .erased then some .eErased
      else if (s.slot d.toNat).tag = .active then some .eBusy
      else none := by
  simp only [State.refusesDuplicate, State.checkFault, State.checkCtx, State.checkErased, State.checkBusy,
    State.isActive, State.isErased, firstFailing_cons, firstFailing_nil, decide_eq_true_eq, beq_iff_eq]
  by_cases hd : s.cfg.nctx ≤ d.toNat
  · simp [hd]
  · simp [hd]

theorem exec_new_of_refusesNew {st : Status} (h : s.refusesNew c alg = some st) :
    ∃ t, exec (.new c alg) s = .next t ∧ Refuses s t st :=
  ⟨s.raise st, by simp [exec, execNew, h], s.raise_refuses st⟩

theorem exec_duplicate_of_refusesDuplicate {st : Status} (h : s.refusesDuplicate d src = some st) :
    ∃ t, exec (.duplicate d src) s = .next t ∧ Refuses s t st :=
  ⟨s.raise st, by simp [exec, execDuplicate, h], s.raise_refuses st⟩

/-- Settles O26: the first check of NEW that fires decides the status. -/
theorem newRefusalsInOrder : Obligations.NewRefusalsInOrder := by
  intro s c alg
  have hrefusal := s.refusesNew_eq c alg
  split
  next hfault => exact exec_new_of_refusesNew (by rw [hrefusal, if_pos hfault])
  next hfault =>
    rw [if_neg hfault] at hrefusal
    split
    next hctx => exact exec_new_of_refusesNew (by rw [hrefusal, if_pos hctx])
    next hctx =>
      rw [if_neg hctx] at hrefusal
      split
      next halg => exact exec_new_of_refusesNew (by rw [hrefusal, if_pos halg])
      next halg =>
        intro hactive
        exact exec_new_of_refusesNew (by rw [hrefusal, if_neg halg, if_pos hactive])

/-- Settles O29: the first check of DUPLICATE that fires decides the status. -/
theorem duplicateRefusalsInOrder : Obligations.DuplicateRefusalsInOrder := by
  intro s d src
  have hrefusal := s.refusesDuplicate_eq d src
  split
  next hfault => exact exec_duplicate_of_refusesDuplicate (by rw [hrefusal, if_pos hfault])
  next hfault =>
    rw [if_neg hfault] at hrefusal
    split
    next hctx => exact exec_duplicate_of_refusesDuplicate (by rw [hrefusal, if_pos hctx])
    next hctx =>
      rw [if_neg hctx] at hrefusal
      split
      next herased => exact exec_duplicate_of_refusesDuplicate (by rw [hrefusal, if_pos herased])
      next herased =>
        intro hactive
        exact exec_duplicate_of_refusesDuplicate (by rw [hrefusal, if_neg herased, if_pos hactive])

/-! ### After ERASE -/

/-- Whatever uses an Erased slot is refused with E_ERASED, DUPLICATE from it included (R149). -/
theorem exec_refuses_of_erased {data : List Byte} {byte : Byte} (hfault : s.fault = false)
    (hc : c.toNat < s.cfg.nctx) (hd : d.toNat < s.cfg.nctx) (htag : (s.slot c.toNat).tag = .erased)
    (hi : i ∈ [Instr.update c data, Instr.update1 c byte, Instr.digest c, Instr.erase c, Instr.duplicate d c]) :
    ∃ t, exec i s = .next t ∧ Refuses s t .eErased := by
  rcases List.mem_append (s := [Instr.update c data, Instr.update1 c byte, Instr.digest c, Instr.erase c]).mp hi with
    huse | hdup
  · have hrefusal : s.refusesUse c = some .eErased := by
      simp [State.refusesUse_eq, hfault, hc, htag]
    exact exec_use_of_refusesUse huse hrefusal
  · have hrefusal : s.refusesDuplicate d c = some .eErased := by
      simp [State.refusesDuplicate_eq, hfault, hc, hd, htag]
    rw [List.mem_singleton.mp hdup]
    exact exec_duplicate_of_refusesDuplicate hrefusal

/-- Settles O31: every use is refused, and by O32 only NEW or DUPLICATE into the slot makes it Active again. -/
theorem eraseThenUseFails : Obligations.EraseThenUseFails := by
  intro s c d data byte hfault hc hd htag
  refine ⟨fun i hi => exec_refuses_of_erased hfault hc hd htag hi, fun i t hexec hactive => ?_⟩
  obtain ⟨-, hcreated⟩ := lifecycleTransitions s t i c.toNat hexec
  rcases hcreated htag hactive with ⟨c', alg, rfl, hsame⟩ | ⟨c', src, rfl, hsame⟩
  · obtain rfl : c' = c := BitVec.eq_of_toNat_eq hsame
    exact .inl ⟨alg, rfl⟩
  · obtain rfl : c' = c := BitVec.eq_of_toNat_eq hsame
    exact .inr ⟨src, rfl⟩

end Sys2Proof.Machine
end

section
/-! Sequences of commands that name one slot: no other slot notices them, and they come to the same on two slots
that hold the same fields (43_lifecycle.md R145, R146). -/

namespace Sys2Proof.Machine

variable {s t u : State} {x y : BitVec 4}

/-! ### The other slots -/

/-- A sequence that comes to a next state comes through the next state of its first command. -/
theorem execAll_cons_eq_next {i : Instr} {is : List Instr} (h : execAll (i :: is) s = .next u) :
    ∃ t, exec i s = .next t ∧ execAll is t = .next u := by
  cases hexec : exec i s with
  | next t => exact ⟨t, rfl, (execAll_cons_of_next hexec).symm.trans h⟩
  | fault f => simp [execAll, hexec] at h
  | refused r => simp [execAll, hexec] at h

/-- A command that names one slot writes no other (10_state.md R27). -/
theorem SlotCommand.writtenSlot_on_ne {d : BitVec 4} {k : Nat} (cmd : SlotCommand) (hk : k ≠ d.toNat) :
    writtenSlot (cmd.on d) ≠ some k := by
  cases cmd <;> simp [SlotCommand.on, writtenSlot, hk.symm]

/-- Settles O36, by induction on the sequence: each command leaves the other slots by O35. -/
theorem commandsOnOneSlotLeaveTheOthers : Obligations.CommandsOnOneSlotLeaveTheOthers := by
  intro s t d cmds hall k hk
  induction cmds generalizing s with
  | nil => cases hall; rfl
  | cons cmd cmds ih =>
    obtain ⟨s', hexec, hrest⟩ := execAll_cons_eq_next hall
    exact (ih s' hrest).trans (slotIsolation s s' (cmd.on d) hexec k (cmd.writtenSlot_on_ne hk))

/-! ### Two slots that hold the same fields -/

/-- Slot `x` of `s` and slot `y` of `t` hold the same fields, and all else that a command naming a single slot can
depend on agrees too; the responses so far are the same. -/
structure Alike (x y : BitVec 4) (s t : State) : Prop where
  consistent : s.consistent = true ∧ t.consistent = true
  cfg : t.cfg = s.cfg
  fault : t.fault = s.fault
  out : t.out = s.out
  lt : x.toNat < s.cfg.nctx ∧ y.toNat < t.cfg.nctx
  slot : t.slot y.toNat = s.slot x.toNat

/-- Runs with the same responses, each on its own slot, that leave the same fields there keep slots alike. -/
theorem Alike.of_ranOn {s' t' : State} {rs : List Response} (h : Alike x y s t) (hx : RanOn x s s' rs)
    (hy : RanOn y t t' rs) (hslot : t'.slot y.toNat = s'.slot x.toNat) : Alike x y s' t' where
  consistent := ⟨hx.consistent, hy.consistent⟩
  cfg := by rw [hy.frame.rest.cfg, hx.frame.rest.cfg, h.cfg]
  fault := by rw [hy.frame.rest.fault, hx.frame.rest.fault, h.fault]
  out := by rw [hy.out, hx.out, h.out]
  lt := by rw [hy.frame.rest.cfg, hx.frame.rest.cfg]; exact h.lt
  slot := hslot

/-- One command on slot `x` of `s` and one on slot `y` of `t` both answer, and leave the slots alike. -/
def AnswerAlike (x y : BitVec 4) (s t : State) (i j : Instr) : Prop :=
  ∃ s' t', exec i s = .next s' ∧ exec j t = .next t' ∧ Alike x y s' t'

/-- A refused command has changed nothing, so it has run, with one response, on whatever slot it names. -/
theorem Refuses.ranOn {st : Status} {i : Instr} (h : Refuses s t st) (hs : s.consistent = true)
    (hexec : exec i s = .next t) (c : BitVec 4) : RanOn c s t [{ status := st, digest := [] }] where
  out := h.answers.out
  frame := ⟨⟨h.slots.count, fun k _ => h.slots.slots k⟩, h.scratch, h.rest⟩
  consistent := (effect_of_exec hexec).consistent hs

/-- Two refusals with the same status leave the slots alike. -/
theorem Alike.answerAlike_of_refuses {st : Status} {i j : Instr} (h : Alike x y s t)
    (hi : ∃ s', exec i s = .next s' ∧ Refuses s s' st) (hj : ∃ t', exec j t = .next t' ∧ Refuses t t' st) :
    AnswerAlike x y s t i j := by
  obtain ⟨s', hexec, hrefuses⟩ := hi
  obtain ⟨t', hexec', hrefuses'⟩ := hj
  obtain ⟨hs, ht⟩ := h.consistent
  refine ⟨s', t', hexec, hexec', h.of_ranOn (hrefuses.ranOn hs hexec x) (hrefuses'.ranOn ht hexec' y) ?_⟩
  rw [hrefuses'.slots.slots, hrefuses.slots.slots, h.slot]

/-! ### The checks fire alike -/

theorem Alike.refusesNew_eq (h : Alike x y s t) (alg : BitVec 8) : t.refusesNew y alg = s.refusesNew x alg := by
  obtain ⟨hx, hy⟩ := h.lt
  rw [State.refusesNew_eq, State.refusesNew_eq, if_neg hx.not_ge, if_neg hy.not_ge, h.fault, h.cfg, h.slot]

theorem Alike.refusesUse_eq (h : Alike x y s t) : t.refusesUse y = s.refusesUse x := by
  obtain ⟨hx, hy⟩ := h.lt
  rw [State.refusesUse_eq, State.refusesUse_eq, if_neg hx.not_ge, if_neg hy.not_ge, h.fault, h.slot]

theorem Alike.refusesDuplicate_eq (h : Alike x y s t) : t.refusesDuplicate y y = s.refusesDuplicate x x := by
  obtain ⟨hx, hy⟩ := h.lt
  simp only [State.refusesDuplicate_eq, or_self, hx.not_ge, hy.not_ge, h.fault, h.slot]

theorem Alike.slotRow_eq (h : Alike x y s t) : t.slotRow? y.toNat = s.slotRow? x.toNat := by
  rw [State.slotRow?, h.cfg, h.slot, State.slotRow?]

theorem usable_of_refusesUse_eq_none (h : s.refusesUse x = none) : Usable s x := by
  obtain ⟨hfault, hlt, htag⟩ := State.refusesUse_eq_none.mp h
  exact ⟨hfault, hlt, Tag.ne_erased.mp htag⟩

/-! ### Each command answers alike -/

/-- NEW makes the same fresh Hasher of both slots, or refuses both alike. -/
theorem Alike.answerAlike_new (h : Alike x y s t) (alg : BitVec 8) :
    AnswerAlike x y s t (.new x alg) (.new y alg) := by
  have hsame := h.refusesNew_eq alg
  cases hrefusal : s.refusesNew x alg with
  | some st =>
    exact h.answerAlike_of_refuses (exec_new_of_refusesNew hrefusal)
      (exec_new_of_refusesNew (hsame.trans hrefusal))
  | none =>
    obtain ⟨hs, ht⟩ := h.consistent
    obtain ⟨hfault, hlt, hdefined, htag⟩ := State.refusesNew_eq_none.mp hrefusal
    obtain ⟨hfault', hlt', -, htag'⟩ := State.refusesNew_eq_none.mp (hsame.trans hrefusal)
    obtain ⟨row, hrow⟩ := Option.isSome_iff_exists.mp hdefined
    obtain ⟨s', hexec, hran, hslot, -⟩ := exec_new_of_erased hs hfault hlt hrow (Tag.ne_active.mp htag)
    obtain ⟨t', hexec', hran', hslot', -⟩ :=
      exec_new_of_erased ht hfault' hlt' (h.cfg ▸ hrow) (Tag.ne_active.mp htag')
    exact ⟨s', t', hexec, hexec', h.of_ranOn hran hran' (by rw [hslot', hslot, h.slot])⟩

/-- A command that uses its slot is refused alike, or the slot can be used on both sides. -/
theorem Alike.answerAlike_use {cmd : SlotCommand} {data : List Byte} {byte : Byte} (h : Alike x y s t)
    (huse : ∀ c, cmd.on c ∈ [Instr.update c data, Instr.update1 c byte, Instr.digest c, Instr.erase c])
    (haccepted : Usable s x → Usable t y → AnswerAlike x y s t (cmd.on x) (cmd.on y)) :
    AnswerAlike x y s t (cmd.on x) (cmd.on y) := by
  have hsame := h.refusesUse_eq
  cases hrefusal : s.refusesUse x with
  | some st =>
    exact h.answerAlike_of_refuses (exec_use_of_refusesUse (huse x) hrefusal)
      (exec_use_of_refusesUse (huse y) (hsame.trans hrefusal))
  | none =>
    exact haccepted (usable_of_refusesUse_eq_none hrefusal)
      (usable_of_refusesUse_eq_none (hsame.trans hrefusal))

/-- What `absorb` makes of the fields of a usable slot it makes of the same fields elsewhere. -/
theorem Alike.answerAlike_feed (h : Alike x y s t) (hx : Usable s x) (hy : Usable t y) (f : Feed) :
    AnswerAlike x y s t (f.on x) (f.on y) := by
  obtain ⟨hs, ht⟩ := h.consistent
  have ⟨_, _, htag⟩ := hx
  obtain ⟨row, hrow, hactive⟩ := State.consistent_usable hs htag
  obtain ⟨sl, habsorb, -⟩ := hactive.absorb f.data
  obtain ⟨s', hexec, hanswers, hframe, hslot⟩ := exec_feed_of_absorb hs hx hrow habsorb
  obtain ⟨t', hexec', hanswers', hframe', hslot'⟩ :=
    exec_feed_of_absorb ht hy (h.slotRow_eq.trans hrow) (h.slot.symm ▸ habsorb)
  have hran : RanOn x s s' [okResponse] := ⟨hanswers.out, hframe, (effect_of_exec hexec).consistent hs⟩
  have hran' : RanOn y t t' [okResponse] := ⟨hanswers'.out, hframe', (effect_of_exec hexec').consistent ht⟩
  exact ⟨s', t', hexec, hexec', h.of_ranOn hran hran' (hslot'.trans hslot.symm)⟩

/-- DIGEST answers from the fields of the slot alone (41_digest_padding.md R96). -/
theorem Alike.answerAlike_digest (h : Alike x y s t) (hx : Usable s x) (hy : Usable t y) :
    AnswerAlike x y s t (.digest x) (.digest y) := by
  obtain ⟨hs, ht⟩ := h.consistent
  have ⟨_, _, htag⟩ := hx
  obtain ⟨row, hrow, -⟩ := State.consistent_usable hs htag
  obtain ⟨s', hexec, hran, hslot⟩ := exec_digest_of_usable hs hx hrow
  obtain ⟨t', hexec', hran', hslot'⟩ := exec_digest_of_usable ht hy (h.slotRow_eq.trans hrow)
  rw [h.slot] at hran' hslot'
  exact ⟨s', t', hexec, hexec', h.of_ranOn hran hran' (hslot'.trans hslot.symm)⟩

theorem Alike.answerAlike_erase (h : Alike x y s t) (hx : Usable s x) (hy : Usable t y) :
    AnswerAlike x y s t (.erase x) (.erase y) := by
  obtain ⟨hs, ht⟩ := h.consistent
  obtain ⟨s', hexec, hran, hslot⟩ := exec_erase_of_usable hs hx
  obtain ⟨t', hexec', hran', hslot'⟩ := exec_erase_of_usable ht hy
  exact ⟨s', t', hexec, hexec', h.of_ranOn hran hran' (by rw [hslot', hslot, h.cfg])⟩

/-- DUPLICATE of a slot into itself never passes its checks: the slot is Erased, or it is Active (R147). -/
theorem refusesDuplicate_self_ne_none (s : State) (c : BitVec 4) : s.refusesDuplicate c c ≠ none := by
  intro hpass
  obtain ⟨-, -, -, hsource, hdest⟩ := State.refusesDuplicate_eq_none.mp hpass
  exact hdest (Tag.ne_erased.mp hsource)

theorem Alike.answerAlike_duplicate (h : Alike x y s t) :
    AnswerAlike x y s t (.duplicate x x) (.duplicate y y) := by
  cases hrefusal : s.refusesDuplicate x x with
  | some st =>
    exact h.answerAlike_of_refuses (exec_duplicate_of_refusesDuplicate hrefusal)
      (exec_duplicate_of_refusesDuplicate (h.refusesDuplicate_eq.trans hrefusal))
  | none => exact absurd hrefusal (refusesDuplicate_self_ne_none s x)

/-- Every command that names a single slot answers alike on slots that are alike. -/
theorem Alike.answerAlike (h : Alike x y s t) (cmd : SlotCommand) :
    AnswerAlike x y s t (cmd.on x) (cmd.on y) := by
  cases cmd with
  | new alg => exact h.answerAlike_new alg
  | update data =>
    exact h.answerAlike_use (data := data) (byte := 0) (fun c => by simp [SlotCommand.on]) fun hx hy =>
      h.answerAlike_feed hx hy (.bytes data)
  | update1 byte =>
    exact h.answerAlike_use (data := []) (byte := byte) (fun c => by simp [SlotCommand.on]) fun hx hy =>
      h.answerAlike_feed hx hy (.byte byte)
  | digest =>
    exact h.answerAlike_use (data := []) (byte := 0) (fun c => by simp [SlotCommand.on]) h.answerAlike_digest
  | duplicate => exact h.answerAlike_duplicate
  | erase =>
    exact h.answerAlike_use (data := []) (byte := 0) (fun c => by simp [SlotCommand.on]) h.answerAlike_erase

/-! ### Sequences -/

/-- Slots that are alike stay alike through the same commands on each. -/
theorem Alike.execAll_alike (h : Alike x y s t) (cmds : List SlotCommand) :
    ∃ s' t', execAll (cmds.map (SlotCommand.on x)) s = .next s' ∧
      execAll (cmds.map (SlotCommand.on y)) t = .next t' ∧ Alike x y s' t' := by
  induction cmds generalizing s t with
  | nil => exact ⟨s, t, rfl, rfl, h⟩
  | cons cmd cmds ih =>
    obtain ⟨s1, t1, hexec, hexec', hafter⟩ := h.answerAlike cmd
    obtain ⟨s', t', hrest, hrest', halike⟩ := ih hafter
    exact ⟨s', t', (execAll_cons_of_next hexec).trans hrest, (execAll_cons_of_next hexec').trans hrest', halike⟩

/-- Settles O37: two slots of one state with equal fields are alike, and stay so. -/
theorem equalSlotsBehaveAlike : Obligations.EqualSlotsBehaveAlike := by
  intro s x y cmds hs hx hy hsame
  have halike : Alike x y s s :=
    { consistent := ⟨hs, hs⟩, cfg := rfl, fault := rfl, out := rfl, lt := ⟨hx, hy⟩, slot := hsame.symm }
  obtain ⟨t, u, hall, hall', hafter⟩ := halike.execAll_alike cmds
  exact ⟨t, u, hall, hall', hafter.out.symm, hafter.slot.symm⟩

end Sys2Proof.Machine
end

section
/-! What the statuses of the responses say (60_exceptions.md R172, R176, R187): the latch refuses every packet, a usage
error leaves the state as it was, and no check or outcome has a reserved code. -/

namespace Sys2Proof.Machine

variable {s t u : State} {i : Instr}

/-! ### The latch -/

/-- Check 1 comes first for every command, so with the latch set no other check and no operand matters (R180). -/
theorem exec_refuses_of_fault (hi : i.isCommand = true) (hfault : s.fault = true) :
    ∃ t, exec i s = .next t ∧ Refuses s t .fInvariant := by
  have huse (c : BitVec 4) : s.refusesUse c = some .fInvariant := by rw [State.refusesUse_eq, if_pos hfault]
  cases i with
  | new c alg => exact exec_new_of_refusesNew (by rw [State.refusesNew_eq, if_pos hfault])
  | update c data => exact exec_use_of_refusesUse (data := data) (byte := 0) (by simp) (huse c)
  | update1 c byte => exact exec_use_of_refusesUse (data := []) (byte := byte) (by simp) (huse c)
  | digest c => exact exec_use_of_refusesUse (data := []) (byte := 0) (by simp) (huse c)
  | duplicate d src => exact exec_duplicate_of_refusesDuplicate (by rw [State.refusesDuplicate_eq, if_pos hfault])
  | erase c => exact exec_use_of_refusesUse (data := []) (byte := 0) (by simp) (huse c)
  | compress => cases hi
  | finalize => cases hi

/-- With the latch set, check 1 hides the E_ILLEGAL of a refused word (R177, R180). -/
theorem State.raiseIllegal_of_fault (hfault : s.fault = true) : s.raiseIllegal = s.raise .fInvariant := by
  simp [State.raiseIllegal, State.checkFault, firstFailing_cons, hfault]

/-- Settles O21: the accepted packet carries a command or an illegal word, and check 1 refuses both. -/
theorem faultLatchRefusesEveryPacket : Obligations.FaultLatchRefusesEveryPacket := by
  intro s w payload rest htakes hfault hframe
  have haccept : (s.accept rest).fault = true := hfault
  cases hdecode : decodePacket w payload with
  | instr i =>
    rw [step_eq_exec_accept htakes hframe hdecode]
    exact exec_refuses_of_fault (isCommand_of_decodePacket hdecode) haccept
  | reject r =>
    rw [step_eq_raiseIllegal_accept htakes hframe hdecode, State.raiseIllegal_of_fault haccept]
    exact ⟨_, rfl, State.raise_refuses _ .fInvariant⟩

/-! ### Usage errors -/

/-- DIGEST's own usage error is E_MSG_TOO_LONG, which carries no bytes (41_digest_padding.md R103). -/
theorem digest_digestResponse_of_usageError {row : AlgRecord} {sl : Slot}
    (h : (digestResponse row sl).status.isUsageError = true) : (digestResponse row sl).digest = [] := by
  cases hlong : tooLong row sl.tl with
  | true => rw [digestResponse_of_tooLong hlong]
  | false => simp [digestResponse_of_short hlong, Status.isUsageError] at h

/-- A command that ends with a usage error has done nothing but raise it: what passes the checks answers OK or aborts
with F_INVARIANT, but for a DIGEST of too long a message, whose snapshot is discarded again. -/
theorem Effect.eq_raise_of_usageError {r : Response} (h : Effect s i t) (hs : s.consistent = true)
    (hi : i.isCommand = true) (hout : t.out = s.out ++ [r]) (hr : r.status.isUsageError = true) :
    t = s.raise r.status := by
  cases h with
  | refuse st =>
    obtain rfl : ⟨st, []⟩ = r := by simpa using hout
    rfl
  | write =>
    obtain rfl : ⟨.ok, []⟩ = r := by simpa using hout
    cases hr
  | abort =>
    obtain rfl : ⟨.fInvariant, []⟩ = r := by simpa using hout
    cases hr
  | @digest c row hrow htag =>
    have hend := (finishDigest_snapshot (State.consistent_activeSlot hs hrow htag)).trans
      (discardScratch_snapshot_respond hs _ _ _)
    rw [hend] at hout ⊢
    obtain rfl : digestResponse row (s.slot c.toNat) = r := by simpa using hout
    rw [digest_digestResponse_of_usageError hr, State.raise]
  | transaction hport => simp [hi] at hport

/-- Settles O23: the command has raised its error, and the consistent state it started from has `S` zero. -/
theorem usageErrorsChangeNothing : Obligations.UsageErrorsChangeNothing := by
  intro s t i r hs hi hexec hout hr
  obtain ⟨-, -, -, hscratch⟩ := State.consistent_iff.mp hs
  rw [(effect_of_exec hexec).eq_raise_of_usageError hs hi hout hr]
  exact ⟨s.raise_refuses r.status, hscratch⟩

/-! ### Reserved codes -/

theorem Status.isReserved_eq_false_iff {st : Status} :
    st.isReserved = false ↔ st ≠ .eKeyLen ∧ st ≠ .eHmacBlockLen := by
  cases st <;> simp [Status.isReserved]

/-- If no check of a list names a reserved code, the list refuses with none. -/
theorem isReserved_of_firstFailing {checks : List (Bool × Status)} {st : Status} (h : firstFailing checks = some st)
    (hchecks : ∀ check ∈ checks, check.2.isReserved = false) : st.isReserved = false :=
  hchecks (true, st) (mem_of_firstFailing_eq_some h)

theorem refusesNew_not_reserved {c : BitVec 4} {alg : BitVec 8} {st : Status} (h : s.refusesNew c alg = some st) :
    st.isReserved = false :=
  isReserved_of_firstFailing h
    (by simp [State.checkFault, State.checkCtx, State.checkAlg, State.checkBusy, Status.isReserved])

theorem refusesUse_not_reserved {c : BitVec 4} {st : Status} (h : s.refusesUse c = some st) :
    st.isReserved = false :=
  isReserved_of_firstFailing h (by simp [State.checkFault, State.checkCtx, State.checkErased, Status.isReserved])

theorem refusesDuplicate_not_reserved {d src : BitVec 4} {st : Status} (h : s.refusesDuplicate d src = some st) :
    st.isReserved = false :=
  isReserved_of_firstFailing h
    (by simp [State.checkFault, State.checkCtx, State.checkErased, State.checkBusy, Status.isReserved])

/-- `t` holds the responses of `s`, and after them only responses without a reserved code (R187). -/
def AddsNoReserved (s t : State) : Prop :=
  ∃ added, t.out = s.out ++ added ∧ ∀ r ∈ added, r.status.isReserved = false

theorem AddsNoReserved.of_out_eq (h : t.out = s.out) : AddsNoReserved s t := ⟨[], by simp [h], by simp⟩

theorem AddsNoReserved.of_response {r : Response} (h : t.out = s.out ++ [r]) (hr : r.status.isReserved = false) :
    AddsNoReserved s t :=
  ⟨[r], h, by simpa using hr⟩

theorem State.raise_addsNoReserved {st : Status} (h : st.isReserved = false) : AddsNoReserved s (s.raise st) :=
  .of_response rfl h

theorem updateWith_addsNoReserved {c : BitVec 4} {data : List Byte} (h : updateWith c data s = .next t) :
    AddsNoReserved s t := by
  rcases updateWith_cases h with ⟨st, hst, rfl⟩ | ⟨-, row, -, ⟨sl, -, rfl⟩ | ⟨-, rfl⟩⟩
  · exact State.raise_addsNoReserved (refusesUse_not_reserved hst)
  · exact .of_response rfl rfl
  · exact .of_response rfl rfl

theorem execDigest_addsNoReserved {c : BitVec 4} (h : execDigest c s = .next t) : AddsNoReserved s t := by
  rcases execDigest_cases h with ⟨st, hst, rfl⟩ | ⟨-, row, -, rfl⟩
  · exact State.raise_addsNoReserved (refusesUse_not_reserved hst)
  · rcases finishDigest_cases row (s.snapshot c.toNat) with ⟨bytes, hend, -⟩ | hend | hend <;> rw [hend]
    · exact .of_response rfl rfl
    · exact .of_response rfl rfl
    · exact .of_response rfl rfl

/-- No instruction returns a reserved code, from any state; a core transaction returns no response at all. -/
theorem exec_addsNoReserved (h : exec i s = .next t) : AddsNoReserved s t := by
  cases i with
  | new c alg =>
    rcases execNew_cases h with ⟨st, hst, rfl⟩ | ⟨-, row, -, rfl⟩
    · exact State.raise_addsNoReserved (refusesNew_not_reserved hst)
    · exact .of_response rfl rfl
  | update c data => exact updateWith_addsNoReserved h
  | update1 c byte => exact updateWith_addsNoReserved h
  | digest c => exact execDigest_addsNoReserved h
  | duplicate d src =>
    rcases execDuplicate_cases h with ⟨st, hst, rfl⟩ | ⟨-, rfl⟩
    · exact State.raise_addsNoReserved (refusesDuplicate_not_reserved hst)
    · exact .of_response rfl rfl
  | erase c =>
    rcases execErase_cases h with ⟨st, hst, rfl⟩ | ⟨-, rfl⟩
    · exact State.raise_addsNoReserved (refusesUse_not_reserved hst)
    · exact .of_response rfl rfl
  | compress a cs data =>
    obtain ⟨reply, fault, rfl, -⟩ := execCompress_cases h
    exact .of_out_eq rfl
  | finalize a cs pb fc tl =>
    obtain ⟨reply, fault, rfl, -⟩ := execFinalize_cases h
    exact .of_out_eq rfl

/-- A refused word is answered F_INVARIANT or E_ILLEGAL (R177, R180). -/
theorem State.raiseIllegal_addsNoReserved (s : State) : AddsNoReserved s s.raiseIllegal := by
  unfold State.raiseIllegal
  split
  next st hst =>
    have hchecks : ∀ check ∈ [s.checkFault], check.2.isReserved = false := by
      simp [State.checkFault, Status.isReserved]
    exact State.raise_addsNoReserved (isReserved_of_firstFailing hst hchecks)
  next => exact State.raise_addsNoReserved rfl

/-- Fetching an instruction answers nothing yet. -/
theorem out_of_fetch_run (h : fetch s = .run i u) : u.out = s.out := by
  rcases fetch_cases s with ⟨-, hf⟩ | ⟨j, hf⟩ | hf | hf <;> rw [hf] at h
  · cases h
  · cases h
    rfl
  · obtain ⟨-, rest, rfl⟩ := fetchPacket_run_cases h
    rfl
  · cases h

theorem out_of_fetch_illegal (h : fetch s = .illegal u) : u.out = s.out := by
  rcases fetch_cases s with ⟨-, hf⟩ | ⟨j, hf⟩ | hf | hf <;> rw [hf] at h
  · cases h
  · cases h
  · obtain ⟨rest, rfl⟩ := fetchPacket_illegal_cases h
    rfl
  · cases h

/-- Whatever is fetched, the step adds no response with a reserved code; reset adds none at all. -/
theorem step_addsNoReserved (h : step s = .next t) : AddsNoReserved s t := by
  unfold step at h
  split at h
  next =>
    cases h
    exact .of_out_eq rfl
  next i u hfetch =>
    rw [AddsNoReserved, ← out_of_fetch_run hfetch]
    exact exec_addsNoReserved h
  next u hfetch =>
    cases h
    rw [AddsNoReserved, ← out_of_fetch_illegal hfetch]
    exact u.raiseIllegal_addsNoReserved
  next => cases h
  next => cases h

/-- Settles O24: every response a step adds is named by a check or is OK, E_MSG_TOO_LONG or F_INVARIANT. -/
theorem reservedCodesAreNeverReturned : Obligations.ReservedCodesAreNeverReturned := by
  intro s t hstep
  obtain ⟨added, hout, hunreserved⟩ := step_addsNoReserved hstep
  exact ⟨added, hout, fun r hr => Status.isReserved_eq_false_iff.mp (hunreserved r hr)⟩

end Sys2Proof.Machine
end

section
/-! Waiting and reset: a step faults while the packet is not whole, never once it is, and the reset input comes before
both (70_reset_and_hazards.md R195, R196, R201). -/

namespace Sys2Proof.Machine

variable {s : State}

/-! ### Framing a stream -/

/-- Fewer than four bytes are no command word (30_encoding.md R60). -/
theorem framePacket_of_length_lt_four {bs : List Byte} (order : Endian) (h : bs.length < 4) :
    framePacket order bs = .needWord := by
  unfold framePacket
  split
  next => simp at h; omega
  next => rfl

/-- Four bytes are a command word, and the packet is whole exactly when the payload it frames has arrived
(30_encoding.md R65). -/
theorem framePacket_cons (order : Endian) (b0 b1 b2 b3 : Byte) (tail : List Byte) :
    framePacket order (b0 :: b1 :: b2 :: b3 :: tail) =
      if payloadLength (bytesWord order b0 b1 b2 b3) ≤ tail.length then
        .packet (bytesWord order b0 b1 b2 b3) (tail.take (payloadLength (bytesWord order b0 b1 b2 b3)))
          (tail.drop (payloadLength (bytesWord order b0 b1 b2 b3)))
      else .needPayload (bytesWord order b0 b1 b2 b3) := by
  simp only [framePacket, takeExact_eq]
  by_cases h : payloadLength (bytesWord order b0 b1 b2 b3) ≤ tail.length <;> simp [h]

/-! ### The wait -/

theorem step_of_needWord (h : TakesPacket s) (hframe : framePacket s.cfg.wordOrder s.input = .needWord) :
    step s = .fault .awaitingCommand := by
  have ⟨_, _, hphase⟩ := h
  simp [step, fetch_of_takesPacket h, fetchPacket, hphase, hframe]

theorem step_of_needPayload {w : Word} (h : TakesPacket s)
    (hframe : framePacket s.cfg.wordOrder s.input = .needPayload w) : step s = .fault .awaitingPayload := by
  have ⟨_, _, hphase⟩ := h
  simp [step, fetch_of_takesPacket h, fetchPacket, hphase, hframe]

/-! ### No instruction waits -/

theorem updateWith_ne_fault (s : State) (c : BitVec 4) (data : List Byte) (f : Fault) :
    updateWith c data s ≠ .fault f := by
  unfold updateWith
  split
  next => simp
  next =>
    split
    next => simp
    next => split <;> simp

theorem execDigest_ne_fault (s : State) (c : BitVec 4) (f : Fault) : execDigest c s ≠ .fault f := by
  unfold execDigest
  split
  next => simp
  next => split <;> simp

theorem execCompress_ne_fault (s : State) (a : BitVec 8) (cs : Nat) (data : List Byte) (f : Fault) :
    execCompress a cs data s ≠ .fault f := by
  unfold execCompress
  split
  next => simp
  next => split <;> simp

theorem execFinalize_ne_fault (s : State) (a : BitVec 8) (cs : Nat) (pb : List Byte) (fc tl : Nat) (f : Fault) :
    execFinalize a cs pb fc tl s ≠ .fault f := by
  unfold execFinalize
  split
  next => simp
  next =>
    split
    next => split <;> simp
    next => simp

/-- An instruction, once fetched, never waits: from any state it answers or has no meaning. NEW, DUPLICATE and ERASE
always answer; the others are refused a meaning at most. -/
theorem exec_ne_fault (i : Instr) (s : State) (f : Fault) : exec i s ≠ .fault f := by
  cases i with
  | new c alg =>
    obtain ⟨t, h⟩ := exists_execNew_eq_next s c alg
    simp [exec, h]
  | update c data => exact updateWith_ne_fault s c data f
  | update1 c byte => exact updateWith_ne_fault s c [byte] f
  | digest c => exact execDigest_ne_fault s c f
  | duplicate d src =>
    obtain ⟨t, h⟩ := exists_execDuplicate_eq_next s d src
    simp [exec, h]
  | erase c =>
    obtain ⟨t, h⟩ := exists_execErase_eq_next s c
    simp [exec, h]
  | compress a cs data => exact execCompress_ne_fault s a cs data f
  | finalize a cs pb fc tl => exact execFinalize_ne_fault s a cs pb fc tl f

/-- A whole packet is not waited for, whether its word is legal or not. -/
theorem step_ne_fault_of_packet {w : Word} {payload rest : List Byte} (h : TakesPacket s)
    (hframe : framePacket s.cfg.wordOrder s.input = .packet w payload rest) (f : Fault) : step s ≠ .fault f := by
  cases hdecode : decodePacket w payload with
  | instr i =>
    rw [step_eq_exec_accept h hframe hdecode]
    exact exec_ne_fault i _ f
  | reject r =>
    rw [step_eq_raiseIllegal_accept h hframe hdecode]
    simp

/-- Settles O9: the three cases are the three results of framing the input. -/
theorem stepWaitsForAWholePacket : Obligations.StepWaitsForAWholePacket := by
  intro s htakes
  refine ⟨fun hshort => step_of_needWord htakes (framePacket_of_length_lt_four _ hshort), ?_⟩
  intro b0 b1 b2 b3 tail hinput
  have hframe := framePacket_cons s.cfg.wordOrder b0 b1 b2 b3 tail
  rw [← hinput] at hframe
  constructor
  · intro hmissing
    rw [if_neg (Nat.not_le.mpr hmissing)] at hframe
    exact step_of_needPayload htakes hframe
  · intro hwhole
    rw [if_pos hwhole] at hframe
    exact step_ne_fault_of_packet htakes hframe

/-! ### The reset input -/

/-- The reset input comes before the core port and the packets (log entry 13). -/
theorem step_of_rst (h : s.rst = true) : step s = .next s.hardwareReset := by
  simp [step, fetch, h]

/-- After the reset action every index reads as the canonical erased slot. -/
@[simp] theorem State.slot_hardwareReset (s : State) (x : Nat) :
    s.hardwareReset.slot x = Slot.canonical s.cfg.bmax := by
  simp [State.slot]

/-- Settles O15: the step is the reset action, whose fields have the listed values. -/
theorem resetInputErasesEverything : Obligations.ResetInputErasesEverything := by
  intro s hrst
  refine ⟨s.hardwareReset, step_of_rst hrst, rfl, List.length_replicate, fun c => ?_,
    rfl, rfl, rfl, rfl, rfl, rfl, rfl, rfl⟩
  rw [State.slot_hardwareReset]
  exact ⟨rfl, rfl, rfl, rfl, rfl, rfl⟩

end Sys2Proof.Machine
end
